-- ==== Sys2Proof/Word.lean ====
section
/-! DEFINITION. The word types of the machine (spec/00_scope.md R4, spec/10_state.md R11, R14, R17). -/

namespace Sys2Proof

/-- A general register, a memory byte, an opcode or an operand byte: 8 bits (R4 `XLEN`, R11, R30). -/
abbrev Byte := BitVec 8

/-- A memory address, 0..255: 8 bits (R4 `ADDRW`, R30). The stack pointer is one (R17). -/
abbrev Addr := BitVec 8

/-- The program counter: 9 bits, so that it holds 256, 257 and 258 without wrapping (R4 `PCW`, R14). -/
abbrev PcWord := BitVec 9

/-- The index of a general register, 0..7 (R11). -/
abbrev RegId := Fin 8

end Sys2Proof
end

