-- ==== Sys2Proof/Config.lean ====
section
/-! DEFINITION. The implementation parameters of spec/00_scope.md R4 that are values; the widths are in Word.lean. The
spec leaves no value undefined (spec/93_implementation_defined.md, section 1), so there is no free value here. -/

namespace Sys2Proof.Config

/-- `MEMSIZE`: bytes of memory (R4, R30). -/
def memSize : Nat := 256

/-- `PC_RESET` (R4, R28). -/
def pcReset : PcWord := 0#9

/-- `SP_RESET`: the top of memory, the empty stack (R4, R18, R28). -/
def spReset : Addr := 255#8

/-- `REG_RESET`: 0 by R4 and R28, the spec's decision D12 (notes/assumptions/12.md). UNVERIFIED, unsafe. -/
def regReset : Byte := 0#8

/-- What a memory byte holds after reset, hence what an unlisted address reads as: R28, R30 "zero-initialized". -/
def memReset : Byte := 0#8

/-- `OOB_OPERAND`: an operand byte fetched from above address 255 (R4, R34, the spec's decision D4,
notes/assumptions/9.md). UNVERIFIED, unsafe. -/
def oobOperand : Byte := 0#8

end Sys2Proof.Config
end

