-- ==== Sys2Proof/Machine/State.lean ====
section
/-! DEFINITION. The state of the core as plain data: everything of spec/10_state.md R10 and nothing else; the reasons a
step stops; the state after reset (R28). -/

namespace Sys2Proof.Machine

/-- The three comparison flags `FL.E`, `FL.L`, `FL.G`: three separate bits (R19, R20). -/
structure Flags where
  /-- `equal`. -/
  e : Bool
  /-- `less_than`. -/
  l : Bool
  /-- `greater_than`. -/
  g : Bool
  deriving DecidableEq, Repr

/-- The five kinds of error and the fields each records (spec/60_exceptions.md R120). -/
inductive ErrorRecord where
  /-- The byte fetched at `pc` is no opcode (R121). -/
  | unsupportedOpcode (opcode : Byte) (pc : PcWord)
  /-- MOD at `pc` with a zero divisor (R122). -/
  | divisionByZero (pc : PcWord)
  /-- A register byte above 7, an opcode fetch above 255, or CALL's return address above 255 (R123). -/
  | outOfBoundsAccess (address : PcWord)
  /-- POP or RET with the stack empty, `sp = 255` (R124). -/
  | stackUnderflow
  /-- PUSH or CALL with the stack full, `sp = 0` (R125). -/
  | stackOverflow
  deriving DecidableEq, Repr

/-- Memory: (address, byte) pairs, in the canonical form of `Memory.wf`. An unlisted address reads as
`Config.memReset` (R28, R30; notes/assumptions/1.md). -/
abbrev Memory := List Host.Cell

/-- The canonical form: addresses strictly rising and below 256, no entry equal to what an unlisted address reads as. -/
abbrev Memory.wf (m : Memory) : Prop :=
  m.Pairwise (fun p q => p.1 < q.1) ∧ ∀ c ∈ m, c.1 < Config.memSize ∧ c.2 ≠ Config.memReset

/-- The complete state of the core (R10). -/
structure State where
  /-- General registers `x[0]` .. `x[7]` (R11). -/
  x : Vector Byte 8
  /-- Program counter (R14). -/
  pc : PcWord
  /-- Stack pointer, a register of its own (R17). -/
  sp : Addr
  /-- Comparison flags (R19). -/
  fl : Flags
  /-- Running flag `RUN` (R21). -/
  run : Bool
  /-- Fault latch `FAULT` (R22). -/
  fault : Option ErrorRecord
  /-- Memory (R24, R30). -/
  mem : Memory
  /-- Output stream `OUT`, oldest first (R23). -/
  out : List Byte
  deriving DecidableEq, Repr

/-- Why no step is taken. Raising an error is not here: it is a next state with the record latched in `FAULT` (R126). -/
inductive Fault where
  /-- The engine, when `RUN = 0`: HLT has executed, and the core takes no step until reset (R70). Safe: the hardware
  takes no step either (notes/assumptions/2.md). -/
  | halted
  /-- The engine, when `FAULT` holds `e`: an error has been raised, and the core takes no step until reset (R70, R127).
  Safe: the hardware takes no step either (notes/assumptions/2.md). -/
  | faulted (e : ErrorRecord)
  deriving DecidableEq, Repr

/-- What the model does not accept. -/
inductive Refusal where
  /-- An arm of `exec` whose instruction has no meaning yet; no arm answers so. Safe. -/
  | notModelled (mnemonic : String)
  /-- The loader, for a program longer than memory: it is refused and no run takes place (R148, decision D25). Safe. -/
  | programTooLong (length : Nat)
  deriving DecidableEq, Repr

/-- The outcome of a step or of an instruction. -/
abbrev Result := Host.Outcome State Fault Refusal

/-- The state after reset (R28, R145). The general registers' 0 is the spec's decision D12 (notes/assumptions/12.md). -/
def State.reset : State where
  x := Vector.replicate 8 Config.regReset
  pc := Config.pcReset
  sp := Config.spReset
  fl := ⟨false, false, false⟩
  run := true
  fault := none
  mem := []
  out := []

end Sys2Proof.Machine
end

