-- ==== Sys2Proof/Machine/Flags.lean ====
section
/-! DEFINITION. The one flag computation of the hardware: CMP's (spec/44_alu.md R107). No other instruction computes a
flag (spec/10_state.md R19). -/

namespace Sys2Proof.Machine

/-- `FL.E`, `FL.L`, `FL.G` from comparing A with B as unsigned numbers (R107, decision D7). -/
def compareFlags (A B : Byte) : Flags :=
  { e := decide (A.toNat = B.toNat), l := decide (A.toNat < B.toNat), g := decide (B.toNat < A.toNat) }

end Sys2Proof.Machine
end

