-- ==== Sys2Proof/Machine/Ops.lean ====
section
/-! DEFINITION. The named operations over memory, registers and the rest of the state; raising an error, the one shared
operation of that kind; the stack (spec/20_memory.md section 2, spec/42_data_stack.md R85, spec/60_exceptions.md R126). -/

namespace Sys2Proof.Machine

/-! ### Memory -/

/-- The byte at an address; an unlisted address holds its reset value (R28). -/
def Memory.byteAt : Memory → Nat → Byte
  | [], _ => Config.memReset
  | (k, v) :: m, a => if k = a then v else Memory.byteAt m a

/-- Set the byte at an address, keeping the canonical form: the reset value is not listed. -/
def Memory.setByte : Memory → Nat → Byte → Memory
  | [], a, v => if v = Config.memReset then [] else [(a, v)]
  | (k, w) :: m, a, v =>
    if a < k then (if v = Config.memReset then (k, w) :: m else (a, v) :: (k, w) :: m)
    else if a = k then (if v = Config.memReset then m else (a, v) :: m)
    else (k, w) :: Memory.setByte m a v

/-- Set consecutive bytes upward from an address; a byte whose address is above 255 is not stored, there being no such
place (R30). The loader's effect (R148). -/
def Memory.setBytes : Memory → Nat → List Byte → Memory
  | m, _, [] => m
  | m, a, v :: vs => Memory.setBytes (if a < Config.memSize then Memory.setByte m a v else m) (a + 1) vs

/-- `MemRead(addr, 1)` (R32): total on 0..255, no side effect. -/
def State.memRead (s : State) (a : Addr) : Byte := s.mem.byteAt a.toNat

/-- `MemWrite(addr, 1, v)` (R33). -/
def State.memWrite (s : State) (a : Addr) (v : Byte) : State := { s with mem := s.mem.setByte a.toNat v }

/-- `FetchOperand(addr)` (R34): the byte at `addr`, or `OOB_OPERAND` above 255. It never faults. -/
def fetchOperand (s : State) (addr : PcWord) : Byte :=
  if addr.toNat < Config.memSize then s.memRead (addr.setWidth 8) else Config.oobOperand

/-! ### Registers, program counter and the rest -/

/-- `x[i]`. -/
def State.reg (s : State) (i : RegId) : Byte := s.x.get i

/-- `x[i] <- v`. -/
def State.setReg (s : State) (i : RegId) (v : Byte) : State := { s with x := s.x.set i.val v i.isLt }

/-- `pc <- pc + width`: the advance of an instruction that does not redirect, 9-bit (R15, R71). -/
def State.advance (s : State) (width : Nat) : State := { s with pc := s.pc + BitVec.ofNat 9 width }

/-- `pc <- zext_9(target)`: a redirect, after which there is no advance (R15, R73, R90). -/
def State.redirect (s : State) (target : Byte) : State := { s with pc := target.setWidth 9 }

/-- `sp <- v` (R17). -/
def State.setSp (s : State) (v : Addr) : State := { s with sp := v }

/-- All three flags at once (R19). -/
def State.setFlags (s : State) (fl : Flags) : State := { s with fl := fl }

/-- `RUN <- 0` (R21). -/
def State.halt (s : State) : State := { s with run := false }

/-- `OUT <- OUT ++ [v]` (R23). -/
def State.emit (s : State) (v : Byte) : State := { s with out := s.out ++ [v] }

/-- `FAULT <- e` and nothing else (R22, R126). -/
def State.latch (s : State) (e : ErrorRecord) : State := { s with fault := some e }

/-! ### Raising an error

The one way an instruction or the engine takes an exception. There is no handler, no saved register and no mode change
(R127), and there is no return from an error (R128), so no return operation stands beside it. -/

/-- `raise E(fields)`: the step is abandoned with no state change but `FAULT` (R126). `s` is the state at the start of the
step, since every check precedes every write. -/
def raise (e : ErrorRecord) (s : State) : Result := .next (s.latch e)

/-! ### The stack (full descending, R85) -/

/-- Push a byte: StackOverflow when `sp = 0`, else decrement, then write at the new `sp` (R87, R91, R125). -/
def push (v : Byte) (s : State) (k : State → Result) : Result :=
  if s.sp = 0#8 then raise .stackOverflow s else k ((s.setSp (s.sp - 1#8)).memWrite (s.sp - 1#8) v)

/-- Pop a byte: StackUnderflow when `sp = 255`, else read at the old `sp`, then increment (R88, R92, R124). Memory is not
changed. -/
def pop (s : State) (k : Byte → State → Result) : Result :=
  if s.sp = 255#8 then raise .stackUnderflow s else k (s.memRead s.sp) (s.setSp (s.sp + 1#8))

end Sys2Proof.Machine
end

