-- ==== Sys2Proof/Machine/Operands.lean ====
section
/-! DEFINITION. The operand forms: a register byte and its check, one or two of them (spec/30_encoding.md R53,
spec/44_alu.md R113). An immediate is the operand byte as it stands (R54) and needs no operation. -/

namespace Sys2Proof.Machine

/-- `RegIndex(b)` (R53): the register that the whole byte names, or none when it is above 7. -/
def regIndex (b : Byte) : Option RegId := if h : b.toNat < 8 then some ⟨b.toNat, h⟩ else none

/-- Evaluate `RegIndex(b)` and go on with the register, or raise `OutOfBoundsAccess(address = b)` (R53, R123). -/
def withReg (b : Byte) (s : State) (k : RegId → Result) : Result :=
  match regIndex b with
  | some i => k i
  | none => raise (.outOfBoundsAccess (b.setWidth 9)) s

/-- The two register bytes of format RR: the first is checked first (R113, R130). -/
def withRegs (a b : Byte) (s : State) (k : RegId → RegId → Result) : Result :=
  withReg a s fun i => withReg b s fun j => k i j

end Sys2Proof.Machine
end

