-- ==== Sys2Proof/Machine/Alu.lean ====
section
/-! DEFINITION. The ALU instructions (spec/44_alu.md): each computes in the unbounded naturals or bit by bit and then
narrows to 8 bits (R101). -/

namespace Sys2Proof.Machine

/-- The shape of ADD, MUL, AND, OR, XOR, SHL, SHR: check both registers, read both, write the first, advance by 3
(R100, R113). -/
def aluBinary (f : Byte → Byte → Byte) (ra rb : Byte) (s : State) : Result :=
  withRegs ra rb s fun i j => .next ((s.setReg i (f (s.reg i) (s.reg j))).advance 3)

/-- `n = B mod 8` (R106). -/
def shiftAmount (B : Byte) : Nat := B.toNat % 8

/-- NOT r (R102). -/
def execNot (r : Byte) (s : State) : Result :=
  withReg r s fun i => .next ((s.setReg i (s.reg i ^^^ 0xFF#8)).advance 2)

/-- ADD ra, rb (R103): `(A + B) mod 256`. -/
def execAdd (ra rb : Byte) (s : State) : Result :=
  aluBinary (fun A B => BitVec.ofNat 8 (A.toNat + B.toNat)) ra rb s

/-- MUL ra, rb (R104): `(A * B) mod 256`. -/
def execMul (ra rb : Byte) (s : State) : Result :=
  aluBinary (fun A B => BitVec.ofNat 8 (A.toNat * B.toNat)) ra rb s

/-- MOD ra, rb (R105): the divisor is tested after both register checks. -/
def execMod (ra rb : Byte) (s : State) : Result :=
  withRegs ra rb s fun i j =>
    if s.reg j = 0#8 then raise (.divisionByZero s.pc) s
    else .next ((s.setReg i (BitVec.ofNat 8 ((s.reg i).toNat % (s.reg j).toNat))).advance 3)

/-- CMP ra, rb (R107): all three flags, no register. -/
def execCmp (ra rb : Byte) (s : State) : Result :=
  withRegs ra rb s fun i j => .next ((s.setFlags (compareFlags (s.reg i) (s.reg j))).advance 3)

/-- AND ra, rb (R108). -/
def execAnd (ra rb : Byte) (s : State) : Result := aluBinary (fun A B => A &&& B) ra rb s

/-- OR ra, rb (R109). -/
def execOr (ra rb : Byte) (s : State) : Result := aluBinary (fun A B => A ||| B) ra rb s

/-- XOR ra, rb (R110). -/
def execXor (ra rb : Byte) (s : State) : Result := aluBinary (fun A B => A ^^^ B) ra rb s

/-- SHL ra, rb (R111): `(A * 2^n) mod 256`. -/
def execShl (ra rb : Byte) (s : State) : Result :=
  aluBinary (fun A B => BitVec.ofNat 8 (A.toNat * 2 ^ shiftAmount B)) ra rb s

/-- SHR ra, rb (R112): `floor(A / 2^n)`, a logical shift. -/
def execShr (ra rb : Byte) (s : State) : Result :=
  aluBinary (fun A B => BitVec.ofNat 8 (A.toNat / 2 ^ shiftAmount B)) ra rb s

end Sys2Proof.Machine
end

