-- ==== Sys2Proof/Machine/Control.lean ====
section
/-! DEFINITION. Control transfer: CALL, RET, JMP, JEQ, JNE (spec/43_control.md). -/

namespace Sys2Proof.Machine

/-- CALL r (R91): the register check, the return address check, the stack check; the target is the register's value
before anything is written. -/
def execCall (r : Byte) (s : State) : Result :=
  withReg r s fun i =>
    if 255 < (s.pc + 2#9).toNat then raise (.outOfBoundsAccess (s.pc + 2#9)) s
    else push ((s.pc + 2#9).setWidth 8) s fun t => .next (t.redirect (s.reg i))

/-- RET (R92): the popped byte as it stands. -/
def execRet (s : State) : Result := pop s fun v t => .next (t.redirect v)

/-- JMP r (R93). -/
def execJmp (r : Byte) (s : State) : Result :=
  withReg r s fun i => .next (s.redirect (s.reg i))

/-- JEQ r (R94): the register is checked whether or not the jump is taken. -/
def execJeq (r : Byte) (s : State) : Result :=
  withReg r s fun i => .next (if s.fl.e then s.redirect (s.reg i) else s.advance 2)

/-- JNE r (R95): the register is checked whether or not the jump is taken. -/
def execJne (r : Byte) (s : State) : Result :=
  withReg r s fun i => .next (if s.fl.e then s.advance 2 else s.redirect (s.reg i))

end Sys2Proof.Machine
end

