-- ==== Sys2Proof/Machine/DataStack.lean ====
section
/-! DEFINITION. Data movement and stack: LDI, PUSH, POP (spec/42_data_stack.md). -/

namespace Sys2Proof.Machine

/-- LDI r, imm (R86). The immediate is never checked as a register index. -/
def execLdi (r imm : Byte) (s : State) : Result :=
  withReg r s fun i => .next ((s.setReg i imm).advance 3)

/-- PUSH r (R87): the register check, then the stack check. -/
def execPush (r : Byte) (s : State) : Result :=
  withReg r s fun i => push (s.reg i) s fun t => .next (t.advance 2)

/-- POP r (R88): the register check, then the stack check. -/
def execPop (r : Byte) (s : State) : Result :=
  withReg r s fun i => pop s fun v t => .next ((t.setReg i v).advance 2)

end Sys2Proof.Machine
end

