-- ==== Sys2Proof/Machine/System.lean ====
section
/-! DEFINITION. The system instructions NOP, HLT, PRN (spec/41_system.md). -/

namespace Sys2Proof.Machine

/-- NOP (R80). -/
def execNop (s : State) : Result := .next (s.advance 1)

/-- HLT (R81): `RUN <- 0`, and `pc` still advances (R77). -/
def execHlt (s : State) : Result := .next (s.halt.advance 1)

/-- PRN r (R82). -/
def execPrn (r : Byte) (s : State) : Result :=
  withReg r s fun i => .next ((s.emit (s.reg i)).advance 2)

end Sys2Proof.Machine
end

