-- ==== Sys2Proof/Syntax.lean ====
section
/-! DEFINITION. The instruction set: one constructor per row of spec/opcode_table.json, in the table's order
(spec/30_encoding.md R55). An operand is the raw operand byte: a register byte above 7 is still that instruction, which
then raises OutOfBoundsAccess (R53, R59), so the byte is kept whole. -/

namespace Sys2Proof

/-- The 21 instructions (R55). `r`, `ra`, `rb` are register bytes, `imm` an immediate byte (R50). -/
inductive Instr where
  /-- NOP, opcode 0, format Z (R80). -/
  | nop
  /-- HLT, opcode 1, format Z (R81). -/
  | hlt
  /-- RET, opcode 17, format Z (R92). -/
  | ret
  /-- PUSH r, opcode 69, format R (R87). -/
  | push (r : Byte)
  /-- POP r, opcode 70, format R (R88). -/
  | pop (r : Byte)
  /-- PRN r, opcode 71, format R (R82). -/
  | prn (r : Byte)
  /-- CALL r, opcode 80, format R (R91). -/
  | call (r : Byte)
  /-- JMP r, opcode 84, format R (R93). -/
  | jmp (r : Byte)
  /-- JEQ r, opcode 85, format R (R94). -/
  | jeq (r : Byte)
  /-- JNE r, opcode 86, format R (R95). -/
  | jne (r : Byte)
  /-- NOT r, opcode 105, format R (R102). -/
  | not (r : Byte)
  /-- LDI r, imm, opcode 130, format RI (R86). -/
  | ldi (r imm : Byte)
  /-- ADD ra, rb, opcode 160, format RR (R103). -/
  | add (ra rb : Byte)
  /-- MUL ra, rb, opcode 162, format RR (R104). -/
  | mul (ra rb : Byte)
  /-- MOD ra, rb, opcode 164, format RR (R105). -/
  | mod (ra rb : Byte)
  /-- CMP ra, rb, opcode 167, format RR (R107). -/
  | cmp (ra rb : Byte)
  /-- AND ra, rb, opcode 168, format RR (R108). -/
  | and (ra rb : Byte)
  /-- OR ra, rb, opcode 170, format RR (R109). -/
  | or (ra rb : Byte)
  /-- XOR ra, rb, opcode 171, format RR (R110). -/
  | xor (ra rb : Byte)
  /-- SHL ra, rb, opcode 172, format RR (R111). -/
  | shl (ra rb : Byte)
  /-- SHR ra, rb, opcode 173, format RR (R112). -/
  | shr (ra rb : Byte)
  deriving DecidableEq, Repr

end Sys2Proof
end

