-- ==== Sys2Proof/Decode.lean ====
section
/-! DEFINITION. The decoder, total on any bytes and rejecting by name, then the encoder
(spec/30_encoding.md R50 to R59, R63). -/

namespace Sys2Proof

/-- Why the decoder rejects. -/
inductive DecodeError where
  /-- The opcode byte is none of the 21 of R55 (R57). -/
  | unsupportedOpcode (opcode : Byte)
  /-- There is no byte to decode. No fetch of the core asks for this; only a caller with an empty list does. -/
  | noBytes
  deriving DecidableEq, Repr

/-- `width = opcode[7:6] + 1` (R51), from the opcode byte alone. -/
def widthOfOpcode (op : Byte) : Nat := op.toNat / 64 + 1

/-- The opcode map of R55 on the opcode byte and the two raw operand bytes of the fetch (R71). All eight bits of the
opcode are matched (R55), NOT is 105 only (R56), and operand bytes that the format does not use are ignored (R58). -/
def decode (op a b : Byte) : Except DecodeError Instr :=
  match op with
  | 0#8 => .ok .nop
  | 1#8 => .ok .hlt
  | 17#8 => .ok .ret
  | 69#8 => .ok (.push a)
  | 70#8 => .ok (.pop a)
  | 71#8 => .ok (.prn a)
  | 80#8 => .ok (.call a)
  | 84#8 => .ok (.jmp a)
  | 85#8 => .ok (.jeq a)
  | 86#8 => .ok (.jne a)
  | 105#8 => .ok (.not a)
  | 130#8 => .ok (.ldi a b)
  | 160#8 => .ok (.add a b)
  | 162#8 => .ok (.mul a b)
  | 164#8 => .ok (.mod a b)
  | 167#8 => .ok (.cmp a b)
  | 168#8 => .ok (.and a b)
  | 170#8 => .ok (.or a b)
  | 171#8 => .ok (.xor a b)
  | 172#8 => .ok (.shl a b)
  | 173#8 => .ok (.shr a b)
  | _ => .error (.unsupportedOpcode op)

/-- Decode the instruction at the head of a list of bytes and give the bytes that follow it. A missing operand byte
reads as `OOB_OPERAND`, as the fetch does at the top of memory (R34). -/
def decodeBytes : List Byte → Except DecodeError (Instr × List Byte)
  | [] => .error .noBytes
  | op :: rest =>
    match decode op (rest.getD 0 Config.oobOperand) (rest.getD 1 Config.oobOperand) with
    | .ok i => .ok (i, rest.drop (widthOfOpcode op - 1))
    | .error e => .error e

/-- The opcode byte of an instruction (R55). -/
def Instr.opcode : Instr → Byte
  | .nop => 0#8
  | .hlt => 1#8
  | .ret => 17#8
  | .push _ => 69#8
  | .pop _ => 70#8
  | .prn _ => 71#8
  | .call _ => 80#8
  | .jmp _ => 84#8
  | .jeq _ => 85#8
  | .jne _ => 86#8
  | .not _ => 105#8
  | .ldi _ _ => 130#8
  | .add _ _ => 160#8
  | .mul _ _ => 162#8
  | .mod _ _ => 164#8
  | .cmp _ _ => 167#8
  | .and _ _ => 168#8
  | .or _ _ => 170#8
  | .xor _ _ => 171#8
  | .shl _ _ => 172#8
  | .shr _ _ => 173#8

/-- The operand bytes, in the order of their addresses (R50, R63). -/
def Instr.operands : Instr → List Byte
  | .nop | .hlt | .ret => []
  | .push r | .pop r | .prn r | .call r | .jmp r | .jeq r | .jne r | .not r => [r]
  | .ldi r imm => [r, imm]
  | .add ra rb | .mul ra rb | .mod ra rb | .cmp ra rb | .and ra rb | .or ra rb | .xor ra rb | .shl ra rb
  | .shr ra rb => [ra, rb]

/-- The bytes of an instruction (R63). -/
def encode (i : Instr) : List Byte := i.opcode :: i.operands

/-- The length of an instruction in bytes, from its opcode (R51). -/
def Instr.width (i : Instr) : Nat := widthOfOpcode i.opcode

/-- The three bytes, lowest address first, of an instruction whose bits are `w`, with bit 0 of `w` the least significant
bit of the first byte; bits at `nbits` and above are 0. -/
def wordBytes (nbits w : Nat) : List Byte :=
  let v := w % 2 ^ nbits
  [BitVec.ofNat 8 v, BitVec.ofNat 8 (v / 256), BitVec.ofNat 8 (v / 65536)]

/-- What the decoder reads from an instruction of the opcode table given as one number. -/
def decodeTableWord (nbits w : Nat) : Option Instr :=
  match decodeBytes (wordBytes nbits w) with
  | .ok (i, _) => some i
  | .error _ => none

end Sys2Proof
end

