-- ==== Sys2Proof/Machine/Engine.lean ====
section
/-! DEFINITION. The execution engine: fetch, decode, dispatch (spec/40_engine_step.md R70, R71, R72). -/

namespace Sys2Proof.Machine

/-- The byte fetched as opcode, at `pc` (R71); asked for only when `pc` is at most 255. -/
def fetchOpcode (s : State) : Byte := s.memRead (s.pc.setWidth 8)

/-- The instruction at `pc`: the three fetches in order, then the table lookup (R37, R71). -/
def decodeAt (s : State) : Except DecodeError Instr :=
  decode (fetchOpcode s) (fetchOperand s (s.pc + 1#9)) (fetchOperand s (s.pc + 2#9))

/-- `Step()` of R71 for a running core, with `execute` the instruction's own rule including the pc update. The checks are
in R130's order: `pc > 255`, then the opcode, then the instruction's own. -/
def runningStep (execute : Instr → State → Result) (s : State) : Result :=
  if 255 < s.pc.toNat then raise (.outOfBoundsAccess s.pc) s
  else match decodeAt s with
    | .ok i => execute i s
    | .error _ => raise (.unsupportedOpcode (fetchOpcode s) s.pc) s

/-- The core takes a step exactly when `RUN = 1` and `FAULT = none` (R70); otherwise there is no next state, and the
outcome names why (notes/assumptions/2.md). -/
def engineStep (execute : Instr → State → Result) (s : State) : Result :=
  match s.run, s.fault with
  | false, _ => .fault .halted
  | true, some e => .fault (.faulted e)
  | true, none => runningStep execute s

end Sys2Proof.Machine
end

