-- ==== Sys2Proof/Machine/Step.lean ====
section
/-! DEFINITION. One step of the core, and placing an instruction where the next step fetches it. -/

namespace Sys2Proof.Machine

/-- One step (spec/40_engine_step.md R70, R71). -/
def step (s : State) : Host.Outcome State Fault Refusal := engineStep exec s

/-- `s` with the three bytes of the instruction `w` at `pc`, `pc + 1`, `pc + 2`, which a running core fetches next. Bytes
whose address would be above 255 have no place and are left out (R30, R34). Only memory changes: it stands for the
loader's write (R148, notes/assumptions/5.md). -/
def State.withFetchWord (s : State) (nbits w : Nat) : State :=
  { s with mem := s.mem.setBytes s.pc.toNat (wordBytes nbits w) }

end Sys2Proof.Machine
end

