-- ==== Sys2Proof/Machine/HostInterface.lean ====
section
/-! DEFINITION. What passes between the core and the software around it, besides reset and step
(spec/70_reset_and_hazards.md R148, R150; spec/10_state.md R29; spec/41_system.md R83; spec/60_exceptions.md R120). -/

namespace Sys2Proof.Machine

/-- The loader's effect (R148): `Mem[k] <- p[k]` for each byte of the program, and nothing else; a program longer than
memory is refused (decision D25). It is used between reset and the first step only (R48, R146). -/
def load (program : List Byte) (s : State) : Result :=
  if program.length ≤ Config.memSize then .next { s with mem := s.mem.setBytes 0 program }
  else .refused (.programTooLong program.length)

/-- The state in which a run of `program` starts: reset, then load (R146). -/
def boot (program : List Byte) : Result := load program State.reset

/-- The terms of spec/00_scope.md section 6: halted is `RUN = 0`, faulted is `FAULT != none`. -/
inductive Status where
  | running
  | halted
  | faulted (e : ErrorRecord)
  deriving DecidableEq, Repr

/-- `RUN` and `FAULT` as the host reads them between steps (R21, R22, R76, R150). -/
def status (s : State) : Status :=
  match s.run, s.fault with
  | false, _ => .halted
  | true, some e => .faulted e
  | true, none => .running

/-- The numeric code of an error kind (R120, decision D19). -/
def ErrorRecord.code : ErrorRecord → Nat
  | .unsupportedOpcode _ _ => 1
  | .divisionByZero _ => 2
  | .outOfBoundsAccess _ => 3
  | .stackUnderflow => 4
  | .stackOverflow => 5

/-- The code of the fault latch: 0 for none (R120). -/
def faultCode : Option ErrorRecord → Nat
  | none => 0
  | some e => e.code

/-- What the trace collaborator may read: the items R29 lists, and the flags, which R19 says it sees. The whole state may be
read likewise (R29); reading changes nothing. -/
structure TraceView where
  pc : PcWord
  /-- The byte at `pc`; there is none when `pc` is above 255 (notes/assumptions/23.md). -/
  opcode : Option Byte
  operandA : Byte
  operandB : Byte
  regs : Vector Byte 8
  flags : Flags
  deriving DecidableEq, Repr

/-- The trace's read of the state; it changes nothing (R29). -/
def trace (s : State) : TraceView where
  pc := s.pc
  opcode := if 255 < s.pc.toNat then none else some (fetchOpcode s)
  operandA := fetchOperand s (s.pc + 1#9)
  operandB := fetchOperand s (s.pc + 2#9)
  regs := s.x
  flags := s.fl

/-- The character of a decimal digit. -/
def digitChar (d : Nat) : Char := Char.ofNat (48 + d)

/-- The decimal digits of a byte, with no sign, padding or leading zero (R83). -/
def decimalDigits (v : Byte) : List Char :=
  let n := v.toNat
  if n < 10 then [digitChar n]
  else if n < 100 then [digitChar (n / 10), digitChar (n % 10)]
  else [digitChar (n / 100), digitChar (n / 10 % 10), digitChar (n % 10)]

/-- `OUT` as text: one value a line, each line ended by a newline (R83, decision D11). -/
def renderOut : List Byte → List Char
  | [] => []
  | v :: vs => decimalDigits v ++ '\n' :: renderOut vs

end Sys2Proof.Machine
end

