-- ==== Sys2Proof/Safety.lean ====
section
/-! DEFINITION. What counts as a sound state of the core and as a precise error, in the terms the claims use. -/

namespace Sys2Proof.Machine

/-- The core takes a step exactly in these states (spec/40_engine_step.md R70). -/
abbrev State.Running (s : State) : Prop := s.run = true ∧ s.fault = none

/-- At most one flag is set: none before the first CMP, exactly one after any (spec/10_state.md R19). -/
abbrev Flags.AtMostOne (f : Flags) : Prop := ¬(f.e ∧ f.l) ∧ ¬(f.e ∧ f.g) ∧ ¬(f.l ∧ f.g)

/-- The latched record describes the state it was raised in, which the error left as it was
(spec/60_exceptions.md R121 to R126). -/
def ErrorRecord.Describes (s : State) : ErrorRecord → Prop
  | .unsupportedOpcode op pc =>
    pc = s.pc ∧ pc.toNat ≤ 255 ∧ op = fetchOpcode s ∧ ∀ a b, decode op a b = .error (.unsupportedOpcode op)
  | .divisionByZero pc => pc = s.pc ∧ pc.toNat ≤ 255 ∧ fetchOpcode s = 164#8
  | .outOfBoundsAccess address =>
    (8 ≤ address.toNat ∧ address.toNat ≤ 255 ∧ s.pc.toNat ≤ 255) ∨
    (address = s.pc ∧ 256 ≤ address.toNat ∧ address.toNat ≤ 258) ∨
    (address.toNat = s.pc.toNat + 2 ∧ (s.pc.toNat = 254 ∨ s.pc.toNat = 255) ∧ fetchOpcode s = 80#8)
  | .stackUnderflow => s.sp = 255#8 ∧ (fetchOpcode s = 70#8 ∨ fetchOpcode s = 17#8)
  | .stackOverflow => s.sp = 0#8 ∧ (fetchOpcode s = 69#8 ∨ fetchOpcode s = 80#8)

/-- The invariant of the core: memory in canonical form, `pc` within 0..258 (R14), at most one flag (R19), an error leaves
`RUN` at 1 (R127), and a latched record describes the state. -/
structure State.Inv (s : State) : Prop where
  memWf : s.mem.wf
  pcLe : s.pc.toNat ≤ 258
  flags : s.fl.AtMostOne
  faultRunning : s.fault ≠ none → s.run = true
  record : ∀ e, s.fault = some e → e.Describes s

/-- The pieces of state of spec/10_state.md R10, each register and each memory byte a piece of its own. -/
inductive Piece where
  | reg (i : RegId)
  | pc
  | sp
  | flags
  | run
  | fault
  | out
  | byte (a : Addr)
  deriving DecidableEq, Repr

/-- The piece reads the same in both states. -/
def Piece.Same (s t : State) : Piece → Prop
  | .reg i => t.reg i = s.reg i
  | .pc => t.pc = s.pc
  | .sp => t.sp = s.sp
  | .flags => t.fl = s.fl
  | .run => t.run = s.run
  | .fault => t.fault = s.fault
  | .out => t.out = s.out
  | .byte a => t.memRead a = s.memRead a

/-- Every piece of state that is not listed reads in `t` as in `s`: the "State changed:" line of an instruction's rule. -/
def OnlyChanges (touched : List Piece) (s t : State) : Prop := ∀ p, p ∉ touched → p.Same s t

/-- The instruction raises `e` in `s`: it takes a next state that differs in `FAULT` only (R126). -/
abbrev Raises (i : Instr) (s : State) (e : ErrorRecord) : Prop := exec i s = .next { s with fault := some e }

/-- The same outcome with its next state changed by `f`, to compare two runs. -/
def mapNext (f : State → State) : Result → Result
  | .next t => .next (f t)
  | .fault r => .fault r
  | .refused r => .refused r

/-- The register operand bytes of an instruction (spec/30_encoding.md R50): LDI's immediate is not one. -/
def registerBytes : Instr → List Byte
  | .nop | .hlt | .ret => []
  | .push r | .pop r | .prn r | .call r | .jmp r | .jeq r | .jne r | .not r => [r]
  | .ldi r _ => [r]
  | .add ra rb | .mul ra rb | .mod ra rb | .cmp ra rb | .and ra rb | .or ra rb | .xor ra rb | .shl ra rb
  | .shr ra rb => [ra, rb]

/-- The opcode bytes of spec/30_encoding.md R57. -/
def supportedOpcodes : List Nat :=
  [0, 1, 17, 69, 70, 71, 80, 84, 85, 86, 105, 130, 160, 162, 164, 167, 168, 170, 171, 172, 173]

/-- The ten ALU instructions (spec/44_alu.md R100). -/
def isAlu : Instr → Bool
  | .not _ | .add _ _ | .mul _ _ | .mod _ _ | .cmp _ _ | .and _ _ | .or _ _ | .xor _ _ | .shl _ _ | .shr _ _ => true
  | .nop | .hlt | .ret | .push _ | .pop _ | .prn _ | .call _ | .jmp _ | .jeq _ | .jne _ | .ldi _ _ => false

/-- The target of a redirect: where the instruction sends `pc` when it redirects in `s`, none when it does not
(spec/40_engine_step.md R73). -/
def redirectTarget (i : Instr) (s : State) : Option Byte :=
  match i with
  | .ret => some (s.memRead s.sp)
  | .call r | .jmp r => (regIndex r).map s.reg
  | .jeq r => if s.fl.e then (regIndex r).map s.reg else none
  | .jne r => if s.fl.e then none else (regIndex r).map s.reg
  | .nop | .hlt | .push _ | .pop _ | .prn _ | .not _ | .ldi _ _ | .add _ _ | .mul _ _ | .mod _ _ | .cmp _ _ | .and _ _
  | .or _ _ | .xor _ _ | .shl _ _ | .shr _ _ => none

/-- The table of spec/60_exceptions.md R131: whether the instruction has an error of that kind among its own. -/
def mayRaise : Instr → ErrorRecord → Bool
  | _, .unsupportedOpcode _ _ => false
  | .mod _ _, .divisionByZero _ => true
  | _, .divisionByZero _ => false
  | .nop, .outOfBoundsAccess _ | .hlt, .outOfBoundsAccess _ | .ret, .outOfBoundsAccess _ => false
  | .call _, .outOfBoundsAccess a => decide (8 ≤ a.toNat ∧ a.toNat ≤ 257)
  | _, .outOfBoundsAccess a => decide (8 ≤ a.toNat ∧ a.toNat ≤ 255)
  | .pop _, .stackUnderflow | .ret, .stackUnderflow => true
  | _, .stackUnderflow => false
  | .push _, .stackOverflow | .call _, .stackOverflow => true
  | _, .stackOverflow => false

end Sys2Proof.Machine
end

