-- ==== Sys2Proof/Certificates/Slice0/Obligations.lean ====
section
/-! DEFINITION. The statements for the provers, from the numbered rules of spec/. Where a clause rests on one of the
spec's own decisions D<n> (spec/92_eei_decisions.md), the docstring names it and its log entry. Hypotheses are on the
state and the operands alone; `s.mem.wf` is the canonical form of memory, which `InvariantIsKeptByEveryStep` keeps. -/

section Statements

open Sys2Proof Sys2Proof.Machine

/-! ### Encoding -/

/-- Words written out bit by bit from spec/30_encoding.md R55 and R63, one or more of each format and family. -/
def Obligations.TableWordsDecodeAsWritten : Prop :=
  decodeTableWord 8 0b00000000 = some .nop ∧
  decodeTableWord 8 0b00010001 = some .ret ∧
  decodeTableWord 16 (0b01000101 + 256 * 0b00000101) = some (.push 5#8) ∧
  decodeTableWord 16 (0b01010000 + 256 * 0b00000001) = some (.call 1#8) ∧
  decodeTableWord 16 (0b01101001 + 256 * 0b00000011) = some (.not 3#8) ∧
  decodeTableWord 24 (0b10000010 + 256 * 0b00000000 + 65536 * 0b00001000) = some (.ldi 0#8 8#8) ∧
  decodeTableWord 24 (0b10100000 + 256 * 0b00000010 + 65536 * 0b00000001) = some (.add 2#8 1#8) ∧
  decodeTableWord 24 (0b10100111 + 256 * 0b00000001 + 65536 * 0b00000011) = some (.cmp 1#8 3#8) ∧
  decodeTableWord 16 0b01010111 = none

/-- R50, R51, R63: decoding the bytes of any instruction, whatever bytes follow, gives that instruction and those bytes.
Every operand byte is at every value. -/
def Obligations.DecodeOfEncodeIsTheInstruction : Prop :=
  ∀ (i : Instr) (rest : List Byte), decodeBytes (encode i ++ rest) = .ok (i, rest)

/-- R50, R55, R58: an instruction decoded from a fetch has exactly the fetched bytes, as many as its opcode says, as its
encoding; so each byte string has one meaning and no operand bit is dropped. -/
def Obligations.DecodedInstructionEncodesToTheFetchedBytes : Prop :=
  ∀ (op a b : Byte) (i : Instr), decode op a b = .ok i →
    encode i = [op, a, b].take (op.toNat / 64 + 1)

/-- R57. The supported opcodes are the 21 listed, whatever the operand bytes; the other 235 are not decoded, and fetching
one changes nothing but `FAULT`, which records the byte and its address. -/
def Obligations.ExactlyTheTableOpcodesAreSupported : Prop :=
  (∀ op a b : Byte, op.toNat ∈ supportedOpcodes → ∃ i, decode op a b = .ok i ∧ i.opcode = op) ∧
  (∀ op a b : Byte, op.toNat ∉ supportedOpcodes → decode op a b = .error (.unsupportedOpcode op)) ∧
  ((List.range 256).filter (fun n => n ∉ supportedOpcodes)).length = 235 ∧
  87 ∉ supportedOpcodes ∧
  (∀ s : State, s.Running → s.pc.toNat ≤ 255 → (s.memRead (s.pc.setWidth 8)).toNat ∉ supportedOpcodes →
    step s = .next { s with fault := some (.unsupportedOpcode (s.memRead (s.pc.setWidth 8)) s.pc) })

/-- R58. The bytes after a 1-byte instruction, and the byte after a 2-byte one, are fetched and ignored, are never
checked, and are where the next instruction begins. -/
def Obligations.UnusedOperandBytesAreIgnored : Prop :=
  (∀ op a b a' b' : Byte, op.toNat / 64 = 0 → decode op a b = decode op a' b') ∧
  (∀ op a b b' : Byte, op.toNat / 64 = 1 → decode op a b = decode op a b') ∧
  (∀ (op : Byte) (i : Instr) (rest : List Byte), op.toNat / 64 = 0 → decode op 0 0 = .ok i →
    decodeBytes (op :: rest) = .ok (i, rest)) ∧
  (∀ (op a : Byte) (i : Instr) (rest : List Byte), op.toNat / 64 = 1 → decode op a 0 = .ok i →
    decodeBytes (op :: a :: rest) = .ok (i, rest))

/-! ### The engine -/

/-- R71: when a running core's `pc` is within memory and the fetched bytes decode to `i`, the step is `exec i` and nothing
besides; `exec` includes the pc update (notes/assumptions/3.md). -/
def Obligations.StepRunsTheDecodedInstruction : Prop :=
  ∀ (s : State) (i : Instr), s.Running → s.pc.toNat ≤ 255 →
    decode (s.memRead (s.pc.setWidth 8)) (fetchOperand s (s.pc + 1#9)) (fetchOperand s (s.pc + 2#9)) = .ok i →
    step s = exec i s

/-- R39, R71: storing the bytes of an instruction at `pc` makes the next step run exactly it. -/
def Obligations.StoredInstructionIsTheOneThatRuns : Prop :=
  ∀ (s : State) (i : Instr), s.Running → s.mem.wf → s.pc.toNat + i.width ≤ 256 →
    step { s with mem := s.mem.setBytes s.pc.toNat (encode i) } =
      exec i { s with mem := s.mem.setBytes s.pc.toNat (encode i) }

/-- R70. A step is taken exactly when `RUN = 1` and `FAULT = none`; otherwise there is no next state. The core is running
after reset and after any load. -/
def Obligations.StepsAreTakenExactlyWhileRunning : Prop :=
  (∀ s : State, (∃ t, step s = .next t) ↔ (s.run = true ∧ s.fault = none)) ∧
  State.reset.Running ∧ (∀ (p : List Byte) (s : State), boot p = .next s → s.Running)

/-- R75, by the spec's decision D3 (notes/assumptions/8.md): a step that begins with `pc > 255` raises
OutOfBoundsAccess(pc) whatever memory holds. -/
def Obligations.OpcodeFetchAbove255Raises : Prop :=
  ∀ s : State, s.Running → 255 < s.pc.toNat →
    step s = .next { s with fault := some (.outOfBoundsAccess s.pc) }

/-- R34, by the spec's decision D4 (notes/assumptions/9.md): operand bytes above address 255 read as 0, for an instruction
at 255 (both) and at 254 (the second), and the instruction executes. -/
def Obligations.OperandsAbove255ReadAsZero : Prop :=
  (∀ (s : State) (i : Instr), s.Running → s.pc = 255#9 → decode (s.memRead 255#8) 0#8 0#8 = .ok i →
    step s = exec i s) ∧
  (∀ (s : State) (i : Instr), s.Running → s.pc = 254#9 →
    decode (s.memRead 254#8) (s.memRead 255#8) 0#8 = .ok i → step s = exec i s)

/-- R15. A step that completes without fault adds the width, or sets the zero-extended target for RET, CALL, JMP and a
taken JEQ or JNE; the sum never overflows; a step that faults leaves `pc`. -/
def Obligations.ProgramCounterAdvancesOrRedirects : Prop :=
  ∀ s t : State, step s = .next t →
    (t.fault ≠ none → t.pc = s.pc) ∧
    (t.fault = none → ∃ i, decodeAt s = .ok i ∧
      match redirectTarget i s with
      | some target => t.pc = target.setWidth 9
      | none => t.pc.toNat = s.pc.toNat + i.width ∧ i.width = i.opcode.toNat / 64 + 1 ∧ t.pc.toNat ≤ 258)

/-- Every instruction answers a next state from every state: none is refused and none stops the machine by itself. An
error is a next state too (R126, by the spec's decision D14; notes/assumptions/2.md). -/
def Obligations.EveryInstructionAnswersANextState : Prop :=
  ∀ (i : Instr) (s : State), ∃ t, exec i s = .next t

/-! ### Reset, load and the invariant -/

/-- R28. The values after reset. The general registers' 0 is the spec's decision D12 (notes/assumptions/12.md), the
latch's `none` its decision D14 (notes/assumptions/14.md). -/
def Obligations.ResetLeavesTheStatedValues : Prop :=
  (∀ i : RegId, State.reset.reg i = 0#8) ∧ State.reset.pc = 0#9 ∧ State.reset.sp = 255#8 ∧
  State.reset.fl.e = false ∧ State.reset.fl.l = false ∧ State.reset.fl.g = false ∧ State.reset.run = true ∧
  State.reset.fault = none ∧ State.reset.out = [] ∧ (∀ a : Addr, State.reset.memRead a = 0#8)

/-- The invariant holds after reset. -/
def Obligations.ResetMeetsTheInvariant : Prop := State.reset.Inv

/-- From every state that meets the invariant, a step gives one that meets it: memory stays canonical, `pc` stays within
0..258 (R14), at most one flag is set (R19), an error leaves `RUN` at 1 (R127), and the latched record names the opcode,
`pc`, register byte, return address or stack end that the state shows (R121 to R125, by the spec's decisions D3, D13, D14,
D16, D18, D22; notes/assumptions/8.md, 13.md, 14.md, 16.md, 18.md, 21.md). -/
def Obligations.InvariantIsKeptByEveryStep : Prop :=
  ∀ s t : State, s.Inv → step s = .next t → t.Inv

/-- R148: a program of at most 256 bytes is written from address 0 upward, the rest of memory stays 0 and nothing else
differs from reset; a longer one is refused, by the spec's decision D25 (notes/assumptions/22.md). -/
def Obligations.LoaderWritesTheProgramFromAddressZero : Prop :=
  ∀ p : List Byte,
    (p.length ≤ 256 → ∃ s, boot p = .next s ∧ s.mem.wf ∧ (∀ a : Addr, s.memRead a = p.getD a.toNat 0#8) ∧
      s = { State.reset with mem := s.mem }) ∧
    (256 < p.length → boot p = .refused (.programTooLong p.length))

/-! ### Errors -/

/-- R126, by the spec's decision D14 (notes/assumptions/14.md): a step that raises an error changes `FAULT` and nothing
else, whatever the error. -/
def Obligations.ErrorsArePrecise : Prop :=
  ∀ (s t : State) (e : ErrorRecord), step s = .next t → t.fault = some e → t = { s with fault := some e }

/-- R12, R53, R113, R130, by the spec's decisions D14, D15, D17, D18 (notes/assumptions/14.md, 15.md, 17.md, 18.md): the
first register byte above 7 raises OutOfBoundsAccess of that byte, before every other check of the instruction; with the
first in range, so does the second of a two-register instruction. -/
def Obligations.RegisterBytesAreCheckedWholeAndFirst : Prop :=
  (∀ (i : Instr) (s : State) (r : Byte) (rest : List Byte), registerBytes i = r :: rest → 8 ≤ r.toNat →
    Raises i s (.outOfBoundsAccess (r.setWidth 9))) ∧
  (∀ (i : Instr) (s : State) (ra rb : Byte), registerBytes i = [ra, rb] → ra.toNat ≤ 7 → 8 ≤ rb.toNat →
    Raises i s (.outOfBoundsAccess (rb.setWidth 9)))

/-- R131: an instruction at an address within memory raises only the kinds of error its row of the table allows, with the
addresses R123 gives (by the spec's decisions D3, D16, D18; notes/assumptions/8.md, 16.md, 18.md). -/
def Obligations.InstructionsRaiseOnlyTheirOwnErrors : Prop :=
  ∀ (i : Instr) (s t : State) (e : ErrorRecord), s.fault = none → s.pc.toNat ≤ 255 → exec i s = .next t →
    t.fault = some e → mayRaise i e = true

/-! ### Who writes and who reads what -/

/-- R19. The flags are false after reset, written by CMP only, all three at once with exactly one of them 1, and the
branches read `FL.E` only: with the other two changed, the same branch goes the same way. No other instruction reads a
flag: with all three changed it does the same. -/
def Obligations.FlagsAreWrittenOnlyByCompare : Prop :=
  State.reset.fl = ⟨false, false, false⟩ ∧
  (∀ (i : Instr) (s t : State), exec i s = .next t → t.fl ≠ s.fl → ∃ ra rb, i = .cmp ra rb) ∧
  (∀ (s : State) (ra rb : Byte), ra.toNat ≤ 7 → rb.toNat ≤ 7 → ∃ t, exec (.cmp ra rb) s = .next t ∧
    (t.fl = ⟨true, false, false⟩ ∨ t.fl = ⟨false, true, false⟩ ∨ t.fl = ⟨false, false, true⟩)) ∧
  (∀ (i : Instr) (s : State) (l g : Bool), (∀ ra rb, i ≠ .cmp ra rb) →
    exec i { s with fl := ⟨s.fl.e, l, g⟩ } = mapNext (fun t => { t with fl := ⟨t.fl.e, l, g⟩ }) (exec i s)) ∧
  (∀ (i : Instr) (s : State) (f : Flags), (∀ ra rb, i ≠ .cmp ra rb) → (∀ r, i ≠ .jeq r ∧ i ≠ .jne r) →
    exec i { s with fl := f } = mapNext (fun t => { t with fl := f }) (exec i s)) ∧
  (∀ (s : State) (f : Flags) (ra rb : Byte), ra.toNat ≤ 7 → rb.toNat ≤ 7 →
    exec (.cmp ra rb) { s with fl := f } = exec (.cmp ra rb) s)

/-- R19, and what the spec says beside its decision D7: over any number of steps, nothing but FL.L and FL.G themselves
depends on FL.L and FL.G. -/
def Obligations.LessAndGreaterInfluenceNothingElse : Prop :=
  ∀ (n : Nat) (s t : State) (l g : Bool), Host.Core.run core n s = .next t →
    ∃ l' g', Host.Core.run core n { s with fl := ⟨s.fl.e, l, g⟩ } = .next { t with fl := ⟨t.fl.e, l', g'⟩ }

/-- R21. `RUN` is 1 after reset, only HLT writes it and only to 0, and no step is taken while it is 0. -/
def Obligations.RunIsClearedOnlyByHalt : Prop :=
  State.reset.run = true ∧
  (∀ (i : Instr) (s t : State), exec i s = .next t → t.run ≠ s.run → i = .hlt ∧ t.run = false) ∧
  (∀ s t : State, s.run = false → step s ≠ .next t)

/-- R23. `OUT` is empty after reset, PRN appends the register's byte, no other instruction touches it, and the core never
reads it: with anything put before it, a step is the same with the same put before the new one. -/
def Obligations.OutputIsAppendedByPrintAndNeverRead : Prop :=
  State.reset.out = [] ∧
  (∀ (s : State) (r : Byte) (i : RegId), r.toNat = i.val →
    ∃ t, exec (.prn r) s = .next t ∧ t.out = s.out ++ [s.reg i]) ∧
  (∀ (i : Instr) (s t : State), exec i s = .next t → t.out ≠ s.out → ∃ r, i = .prn r) ∧
  (∀ (s : State) (o : List Byte),
    step { s with out := o ++ s.out } = mapNext (fun t => { t with out := o ++ t.out }) (step s))

/-- R17, R18, by the spec's decisions D2 and D13 (notes/assumptions/7.md, 13.md): `sp` moves only by PUSH and CALL, down by
one, and by POP and RET, up by one, and never wraps. -/
def Obligations.StackPointerMovesByOneWithoutWrapping : Prop :=
  ∀ (i : Instr) (s t : State), exec i s = .next t →
    t.sp = s.sp ∨
    (t.sp.toNat + 1 = s.sp.toNat ∧ ∃ r, i = .push r ∨ i = .call r) ∨
    (t.sp.toNat = s.sp.toNat + 1 ∧ ((∃ r, i = .pop r) ∨ i = .ret))

/-- R18, R33, R37: the one byte of memory an instruction can change is at `sp - 1`, by PUSH or CALL, and it is never
address 255. -/
def Obligations.MemoryChangesOnlyAtThePushedByte : Prop :=
  ∀ (i : Instr) (s t : State), s.mem.wf → exec i s = .next t → ∀ a : Addr, t.memRead a ≠ s.memRead a →
    (∃ r, i = .push r ∨ i = .call r) ∧ s.sp ≠ 0#8 ∧ a = s.sp - 1#8 ∧ a ≠ 255#8

/-- R13, the column "writes": only LDI, POP and the ALU instructions but CMP write a general register, and only the one
their first operand names. -/
def Obligations.RegistersChangeOnlyAtTheDestination : Prop :=
  ∀ (i : Instr) (s t : State) (k : RegId), exec i s = .next t → t.reg k ≠ s.reg k →
    i.opcode.toNat ∈ [70, 105, 130, 160, 162, 164, 168, 170, 171, 172, 173] ∧
    ∃ b rest, registerBytes i = b :: rest ∧ b.toNat = k.val

/-- R13, the column "reads": a register that the instruction does not name has no influence on it and keeps its value. -/
def Obligations.UnnamedRegistersHaveNoInfluence : Prop :=
  ∀ (i : Instr) (s : State) (k : RegId) (v : Byte), (∀ b ∈ registerBytes i, b.toNat ≠ k.val) →
    exec i (s.setReg k v) = mapNext (fun t => t.setReg k v) (exec i s)

/-- R100. An ALU instruction reads and writes the register file only: it touches neither memory nor `sp` nor `OUT`, writes
no register but the first named, does not redirect, and does the same whatever memory holds. -/
def Obligations.AluTouchesOnlyTheRegisterFile : Prop :=
  ∀ (i : Instr) (s : State), isAlu i = true →
    redirectTarget i s = none ∧
    (∀ t, exec i s = .next t → t.sp = s.sp ∧ t.out = s.out ∧ (∀ a : Addr, t.memRead a = s.memRead a) ∧
      (∀ k : RegId, t.reg k ≠ s.reg k → ∃ b rest, registerBytes i = b :: rest ∧ b.toNat = k.val) ∧
      (t.pc = s.pc + BitVec.ofNat 9 i.width ∨ (t.pc = s.pc ∧ ∃ e, Raises i s e))) ∧
    (∀ m : Memory, exec i { s with mem := m } = mapNext (fun t => { t with mem := m }) (exec i s))

/-! ### System instructions -/

/-- R80. NOP: opcode 0, one byte; `pc` only, by 1. -/
def Obligations.NopAdvancesOnly : Prop :=
  encode .nop = [0#8] ∧
  ∀ s : State, ∃ t, exec .nop s = .next t ∧ t.pc = s.pc + 1#9 ∧ OnlyChanges [.pc] s t

/-- R81. HLT: opcode 1, one byte; `RUN <- 0`, `pc` by 1, nothing else; then no further step. -/
def Obligations.HltClearsRunAndAdvances : Prop :=
  encode .hlt = [1#8] ∧
  ∀ s : State, ∃ t, exec .hlt s = .next t ∧ t.run = false ∧ t.pc = s.pc + 1#9 ∧ OnlyChanges [.run, .pc] s t ∧
    ∀ u, step t ≠ .next u

/-- R82: PRN appends the register's byte to `OUT` (an unsigned number by the spec's decision D11, notes/assumptions/20.md)
and advances by 2. -/
def Obligations.PrnAppendsTheRegister : Prop :=
  ∀ (s : State) (r : Byte) (i : RegId), r.toNat = i.val →
    ∃ t, exec (.prn r) s = .next t ∧ t.out = s.out ++ [s.reg i] ∧ t.pc = s.pc + 2#9 ∧ OnlyChanges [.out, .pc] s t

/-! ### Data movement and stack -/

/-- R86. LDI: opcode 130, three bytes; the immediate as it stands, every value of it; a bad register byte raises
OutOfBoundsAccess of that byte and leaves the register file. -/
def Obligations.LdiLoadsTheImmediate : Prop :=
  (∀ r imm : Byte, encode (.ldi r imm) = [130#8, r, imm]) ∧
  (∀ (s : State) (r imm : Byte) (i : RegId), r.toNat = i.val →
    ∃ t, exec (.ldi r imm) s = .next t ∧ t.reg i = imm ∧ t.pc = s.pc + 3#9 ∧ OnlyChanges [.reg i, .pc] s t) ∧
  (∀ (s : State) (r imm : Byte), 7 < r.toNat →
    ∃ t, exec (.ldi r imm) s = .next t ∧ t.fault = some (.outOfBoundsAccess (r.setWidth 9)) ∧
      ∀ k : RegId, t.reg k = s.reg k)

/-- R87: PUSH decrements `sp`, writes the register's byte at the new `sp`, and advances by 2; with `sp = 0` it raises
StackOverflow instead, by the spec's decision D13 (notes/assumptions/13.md). -/
def Obligations.PushStoresBelowTheStackPointer : Prop :=
  ∀ (s : State) (r : Byte) (i : RegId), r.toNat = i.val →
    (s.mem.wf → s.sp ≠ 0#8 → ∃ t, exec (.push r) s = .next t ∧ t.sp.toNat = s.sp.toNat - 1 ∧
      t.memRead t.sp = s.reg i ∧ t.pc = s.pc + 2#9 ∧ OnlyChanges [.sp, .byte (s.sp - 1#8), .pc] s t) ∧
    (s.sp = 0#8 → Raises (.push r) s .stackOverflow)

/-- R88: POP reads the byte at the old `sp` into the register, increments `sp`, leaves memory, and advances by 2; with
`sp = 255` it raises StackUnderflow instead, by the spec's decision D13 (notes/assumptions/13.md). -/
def Obligations.PopLoadsAtTheStackPointer : Prop :=
  ∀ (s : State) (r : Byte) (i : RegId), r.toNat = i.val →
    (s.sp ≠ 255#8 → ∃ t, exec (.pop r) s = .next t ∧ t.reg i = s.memRead s.sp ∧ t.sp.toNat = s.sp.toNat + 1 ∧
      t.pc = s.pc + 2#9 ∧ OnlyChanges [.reg i, .sp, .pc] s t) ∧
    (s.sp = 255#8 → Raises (.pop r) s .stackUnderflow)

/-- R89: PUSH then POP, of any two registers, moves the value, restores `sp`, and leaves the pushed byte behind as the only
other change. -/
def Obligations.PushThenPopMovesTheValue : Prop :=
  ∀ (s : State) (ra rb : Byte) (i j : RegId), ra.toNat = i.val → rb.toNat = j.val → s.mem.wf → s.sp ≠ 0#8 →
    ∃ t u, exec (.push ra) s = .next t ∧ exec (.pop rb) t = .next u ∧ u.reg j = s.reg i ∧ u.sp = s.sp ∧
      u.memRead (s.sp - 1#8) = s.reg i ∧ OnlyChanges [.reg j, .byte (s.sp - 1#8), .pc] s u

/-! ### Control transfer -/

/-- R91: CALL pushes the address after it and goes to the register's value, which it reads first. At address 254 or 255 it
raises OutOfBoundsAccess of the return address, before the stack check, and with `sp = 0` StackOverflow, by the spec's
decisions D13, D15 and D16 (notes/assumptions/13.md, 15.md, 16.md). -/
def Obligations.CallPushesTheReturnAddress : Prop :=
  ∀ (s : State) (r : Byte) (i : RegId), r.toNat = i.val →
    (s.mem.wf → s.pc.toNat ≤ 253 → s.sp ≠ 0#8 → ∃ t, exec (.call r) s = .next t ∧ t.pc = (s.reg i).setWidth 9 ∧
      t.sp.toNat = s.sp.toNat - 1 ∧ (t.memRead t.sp).toNat = s.pc.toNat + 2 ∧
      OnlyChanges [.sp, .byte (s.sp - 1#8), .pc] s t) ∧
    (s.pc = 254#9 → Raises (.call r) s (.outOfBoundsAccess 256#9)) ∧
    (s.pc = 255#9 → Raises (.call r) s (.outOfBoundsAccess 257#9)) ∧
    (s.pc.toNat ≤ 253 → s.sp = 0#8 → Raises (.call r) s .stackOverflow)

/-- R92: RET goes to the byte at the old `sp` as it stands and increments `sp`; with `sp = 255` it raises StackUnderflow
instead, by the spec's decision D13 (notes/assumptions/13.md). -/
def Obligations.RetPopsTheTarget : Prop :=
  ∀ s : State,
    (s.sp ≠ 255#8 → ∃ t, exec .ret s = .next t ∧ t.pc = (s.memRead s.sp).setWidth 9 ∧
      t.sp.toNat = s.sp.toNat + 1 ∧ OnlyChanges [.pc, .sp] s t) ∧
    (s.sp = 255#8 → Raises .ret s .stackUnderflow)

/-- R96: when a CALL at `p ≤ 253` has executed, a RET reached from any later state with the same `sp` and the same byte
there resumes at `p + 2` with the `sp` of before the CALL. -/
def Obligations.ReturnResumesAfterTheCall : Prop :=
  ∀ (s : State) (r : Byte) (i : RegId), r.toNat = i.val → s.mem.wf → s.pc.toNat ≤ 253 → s.sp ≠ 0#8 →
    ∃ t, exec (.call r) s = .next t ∧
      ∀ u : State, u.sp = t.sp → u.memRead (s.sp - 1#8) = t.memRead (s.sp - 1#8) →
        ∃ v, exec .ret u = .next v ∧ v.pc.toNat = s.pc.toNat + 2 ∧ v.sp = s.sp

/-- R93. JMP: opcode 84, two bytes; `pc` only, to the register's value; a bad register byte raises OutOfBoundsAccess of
that byte and leaves `pc`. -/
def Obligations.JmpGoesToTheRegister : Prop :=
  (∀ r : Byte, encode (.jmp r) = [84#8, r]) ∧
  (∀ (s : State) (r : Byte) (i : RegId), r.toNat = i.val →
    ∃ t, exec (.jmp r) s = .next t ∧ t.pc = (s.reg i).setWidth 9 ∧ OnlyChanges [.pc] s t) ∧
  (∀ (s : State) (r : Byte), 7 < r.toNat →
    ∃ t, exec (.jmp r) s = .next t ∧ t.fault = some (.outOfBoundsAccess (r.setWidth 9)) ∧ t.pc = s.pc)

/-- R94: JEQ goes to the register's value when `FL.E = 1`, else advances by 2; the register byte is checked either way, by
the spec's decision D17 (notes/assumptions/17.md). -/
def Obligations.JeqFollowsTheEqualFlag : Prop :=
  (∀ (s : State) (r : Byte) (i : RegId), r.toNat = i.val →
    ∃ t, exec (.jeq r) s = .next t ∧ t.pc = (if s.fl.e = true then (s.reg i).setWidth 9 else s.pc + 2#9) ∧
      OnlyChanges [.pc] s t) ∧
  (∀ (s : State) (r : Byte), 7 < r.toNat → Raises (.jeq r) s (.outOfBoundsAccess (r.setWidth 9)))

/-- R95: JNE goes to the register's value when `FL.E = 0`, else advances by 2; the register byte is checked either way, by
the spec's decision D17 (notes/assumptions/17.md). -/
def Obligations.JneFollowsTheEqualFlag : Prop :=
  (∀ (s : State) (r : Byte) (i : RegId), r.toNat = i.val →
    ∃ t, exec (.jne r) s = .next t ∧ t.pc = (if s.fl.e = false then (s.reg i).setWidth 9 else s.pc + 2#9) ∧
      OnlyChanges [.pc] s t) ∧
  (∀ (s : State) (r : Byte), 7 < r.toNat → Raises (.jne r) s (.outOfBoundsAccess (r.setWidth 9)))

/-! ### ALU -/

/-- R102. NOT: opcode 105, two bytes; every bit inverted, 255 minus the value; a bad register byte raises
OutOfBoundsAccess of that byte. -/
def Obligations.NotInvertsEveryBit : Prop :=
  (∀ r : Byte, encode (.not r) = [105#8, r]) ∧
  (∀ (s : State) (r : Byte) (i : RegId), r.toNat = i.val →
    ∃ t, exec (.not r) s = .next t ∧ (t.reg i).toNat = 255 - (s.reg i).toNat ∧
      (∀ k, k < 8 → (t.reg i).getLsbD k = !(s.reg i).getLsbD k) ∧ t.pc = s.pc + 2#9 ∧
      OnlyChanges [.reg i, .pc] s t) ∧
  (∀ (s : State) (r : Byte), 7 < r.toNat →
    ∃ t, exec (.not r) s = .next t ∧ t.fault = some (.outOfBoundsAccess (r.setWidth 9)))

/-- R103. ADD: opcode 160, three bytes; the sum modulo 256 into the first register; commutative in its result; a bad index
raises OutOfBoundsAccess. -/
def Obligations.AddIsTheSumModulo256 : Prop :=
  (∀ ra rb : Byte, encode (.add ra rb) = [160#8, ra, rb]) ∧
  (∀ (s : State) (ra rb : Byte) (i j : RegId), ra.toNat = i.val → rb.toNat = j.val →
    ∃ t u, exec (.add ra rb) s = .next t ∧ (t.reg i).toNat = ((s.reg i).toNat + (s.reg j).toNat) % 256 ∧
      t.pc = s.pc + 3#9 ∧ OnlyChanges [.reg i, .pc] s t ∧
      exec (.add rb ra) s = .next u ∧ u.reg j = t.reg i) ∧
  (∀ (s : State) (ra rb : Byte), 7 < ra.toNat ∨ 7 < rb.toNat →
    ∃ t a, exec (.add ra rb) s = .next t ∧ t.fault = some (.outOfBoundsAccess a))

/-- R104. MUL: opcode 162, three bytes; the low 8 bits of the product into the first register; a bad index raises
OutOfBoundsAccess. -/
def Obligations.MulIsTheProductModulo256 : Prop :=
  (∀ ra rb : Byte, encode (.mul ra rb) = [162#8, ra, rb]) ∧
  (∀ (s : State) (ra rb : Byte) (i j : RegId), ra.toNat = i.val → rb.toNat = j.val →
    ∃ t, exec (.mul ra rb) s = .next t ∧ (t.reg i).toNat = ((s.reg i).toNat * (s.reg j).toNat) % 256 ∧
      t.pc = s.pc + 3#9 ∧ OnlyChanges [.reg i, .pc] s t) ∧
  (∀ (s : State) (ra rb : Byte), 7 < ra.toNat ∨ 7 < rb.toNat →
    ∃ t a, exec (.mul ra rb) s = .next t ∧ t.fault = some (.outOfBoundsAccess a))

/-- R105: MOD puts the unsigned remainder (the spec's decision D10, notes/assumptions/11.md) into the first register; with
a zero divisor it raises DivisionByZero with its own address, changing nothing else (decisions D14, D22,
notes/assumptions/14.md, 21.md). -/
def Obligations.ModIsTheRemainderOrDivisionByZero : Prop :=
  ∀ (s : State) (ra rb : Byte) (i j : RegId), ra.toNat = i.val → rb.toNat = j.val →
    (s.reg j ≠ 0#8 → ∃ t q, exec (.mod ra rb) s = .next t ∧ (t.reg i).toNat < (s.reg j).toNat ∧
      (s.reg i).toNat = q * (s.reg j).toNat + (t.reg i).toNat ∧ t.pc = s.pc + 3#9 ∧
      OnlyChanges [.reg i, .pc] s t) ∧
    (s.reg j = 0#8 → Raises (.mod ra rb) s (.divisionByZero s.pc))

/-- R107: CMP sets all three flags from the unsigned comparison of the first register with the second (the spec's decision
D7, notes/assumptions/11.md), and no register. -/
def Obligations.CmpSetsAllThreeFlags : Prop :=
  ∀ (s : State) (ra rb : Byte) (i j : RegId), ra.toNat = i.val → rb.toNat = j.val →
    ∃ t, exec (.cmp ra rb) s = .next t ∧ (t.fl.e = true ↔ s.reg i = s.reg j) ∧
      (t.fl.l = true ↔ (s.reg i).toNat < (s.reg j).toNat) ∧ (t.fl.g = true ↔ (s.reg j).toNat < (s.reg i).toNat) ∧
      t.pc = s.pc + 3#9 ∧ OnlyChanges [.flags, .pc] s t

/-- R108, R109, R110. AND, OR, XOR: opcodes 168, 170, 171, three bytes; bit by bit into the first register; a bad index
raises OutOfBoundsAccess. -/
def Obligations.BitwiseInstructionsWorkBitByBit : Prop :=
  (∀ ra rb : Byte, encode (.and ra rb) = [168#8, ra, rb] ∧ encode (.or ra rb) = [170#8, ra, rb] ∧
    encode (.xor ra rb) = [171#8, ra, rb]) ∧
  (∀ (s : State) (ra rb : Byte) (i j : RegId), ra.toNat = i.val → rb.toNat = j.val →
    (∃ t, exec (.and ra rb) s = .next t ∧ t.pc = s.pc + 3#9 ∧ OnlyChanges [.reg i, .pc] s t ∧
      ∀ k, (t.reg i).getLsbD k = ((s.reg i).getLsbD k && (s.reg j).getLsbD k)) ∧
    (∃ t, exec (.or ra rb) s = .next t ∧ t.pc = s.pc + 3#9 ∧ OnlyChanges [.reg i, .pc] s t ∧
      ∀ k, (t.reg i).getLsbD k = ((s.reg i).getLsbD k || (s.reg j).getLsbD k)) ∧
    (∃ t, exec (.xor ra rb) s = .next t ∧ t.pc = s.pc + 3#9 ∧ OnlyChanges [.reg i, .pc] s t ∧
      ∀ k, (t.reg i).getLsbD k = ((s.reg i).getLsbD k ^^ (s.reg j).getLsbD k))) ∧
  (∀ (s : State) (i : Instr) (ra rb : Byte), i = .and ra rb ∨ i = .or ra rb ∨ i = .xor ra rb →
    7 < ra.toNat ∨ 7 < rb.toNat → ∃ t a, exec i s = .next t ∧ t.fault = some (.outOfBoundsAccess a))

/-- R106, R111, by the spec's decision D9 (notes/assumptions/19.md): SHL shifts left by the second register modulo 8, zeros
entering, bits leaving bit 7 lost. -/
def Obligations.ShlShiftsLeftModulo8 : Prop :=
  ∀ (s : State) (ra rb : Byte) (i j : RegId), ra.toNat = i.val → rb.toNat = j.val →
    ∃ t, exec (.shl ra rb) s = .next t ∧ t.reg i = s.reg i <<< ((s.reg j).toNat % 8) ∧
      (t.reg i).toNat = (s.reg i).toNat * 2 ^ ((s.reg j).toNat % 8) % 256 ∧ t.pc = s.pc + 3#9 ∧
      OnlyChanges [.reg i, .pc] s t

/-- R106, R112, by the spec's decisions D8 and D9 (notes/assumptions/11.md, 19.md): SHR shifts right by the second register
modulo 8, zeros entering. -/
def Obligations.ShrShiftsRightLogicallyModulo8 : Prop :=
  ∀ (s : State) (ra rb : Byte) (i j : RegId), ra.toNat = i.val → rb.toNat = j.val →
    ∃ t, exec (.shr ra rb) s = .next t ∧ t.reg i = s.reg i >>> ((s.reg j).toNat % 8) ∧
      (t.reg i).toNat = (s.reg i).toNat / 2 ^ ((s.reg j).toNat % 8) ∧ t.pc = s.pc + 3#9 ∧
      OnlyChanges [.reg i, .pc] s t

/-- R161: after ADD of two different registers, CMP of them gives less_than exactly when the addition wrapped (an unsigned
comparison, by the spec's decision D7; notes/assumptions/11.md). -/
def Obligations.CompareAfterAddDetectsTheCarry : Prop :=
  ∀ (s : State) (ra rb : Byte) (i j : RegId), ra.toNat = i.val → rb.toNat = j.val → i ≠ j →
    ∃ t u, exec (.add ra rb) s = .next t ∧ exec (.cmp ra rb) t = .next u ∧
      (u.fl.l = true ↔ 256 ≤ (s.reg i).toNat + (s.reg j).toNat)

/-! ### Runs -/

/-- R47, R156: a byte pushed onto the address of the next instruction is the next opcode fetched, and that instruction is
the one that runs. -/
def Obligations.APushedByteIsExecutedNext : Prop :=
  ∀ (s : State) (r : Byte) (i : RegId) (j : Instr), r.toNat = i.val → s.Running → s.mem.wf → s.sp ≠ 0#8 →
    s.pc.toNat + 2 = s.sp.toNat - 1 →
    decode (s.reg i) (fetchOperand s (s.pc + 3#9)) (fetchOperand s (s.pc + 4#9)) = .ok j →
    ∃ t, exec (.push r) s = .next t ∧ t.pc.toNat = s.pc.toNat + 2 ∧ step t = exec j t

/-- R74, R76 case (c): a running core at a JMP to its own address steps for ever, and every step gives the same state. -/
def Obligations.AJumpToItselfNeverEnds : Prop :=
  ∀ (s : State) (r : Byte) (i : RegId), r.toNat = i.val → s.Running → s.pc.toNat ≤ 255 →
    decodeAt s = .ok (.jmp r) → (s.reg i).setWidth 9 = s.pc → ∀ n, Host.Core.run core n s = .next s

/-- R157: where memory is 0 from `pc` to its top, the core runs NOPs to `pc = 256`, changing nothing else, and the next
step raises OutOfBoundsAccess(256) (the spec's decision D3, notes/assumptions/8.md). -/
def Obligations.ZeroMemoryRunsOffTheTop : Prop :=
  ∀ s : State, s.Running → s.pc.toNat ≤ 256 → (∀ a : Addr, s.pc.toNat ≤ a.toNat → s.memRead a = 0#8) →
    Host.Core.run core (256 - s.pc.toNat) s = .next { s with pc := 256#9 } ∧
    Host.Core.run core (257 - s.pc.toNat) s =
      .next { s with pc := 256#9, fault := some (.outOfBoundsAccess 256#9) }

end Statements
end

