-- ==== Sys2Proof/Laws/PerInstr.lean ====
section
/-! SUPPORT. The family EncodedLength: the bytes of an instruction are as many as its opcode byte's top two bits say plus
one, between 1 and 3 (spec/30_encoding.md R50, R51). One lemma per constructor. -/

namespace Sys2Proof.Laws

/-- The encoding of `i` has `opcode[7:6] + 1` bytes, and the operand count is `opcode[7:6]`. -/
def EncodedLength.Statement (i : Instr) : Prop :=
  (encode i).length = (i.opcode.toNat >>> 6) + 1 ∧ i.operands.length = i.opcode.toNat >>> 6 ∧
  i.width = (encode i).length ∧ (encode i).length ≤ 3

theorem EncodedLength.nop : EncodedLength.Statement .nop := by
  simp [EncodedLength.Statement, encode, Instr.operands, Instr.width, widthOfOpcode, Instr.opcode]
theorem EncodedLength.hlt : EncodedLength.Statement .hlt := by
  simp [EncodedLength.Statement, encode, Instr.operands, Instr.width, widthOfOpcode, Instr.opcode]
theorem EncodedLength.ret : EncodedLength.Statement .ret := by
  simp [EncodedLength.Statement, encode, Instr.operands, Instr.width, widthOfOpcode, Instr.opcode]
theorem EncodedLength.push (r : Byte) : EncodedLength.Statement (.push r) := by
  simp [EncodedLength.Statement, encode, Instr.operands, Instr.width, widthOfOpcode, Instr.opcode]
theorem EncodedLength.pop (r : Byte) : EncodedLength.Statement (.pop r) := by
  simp [EncodedLength.Statement, encode, Instr.operands, Instr.width, widthOfOpcode, Instr.opcode]
theorem EncodedLength.prn (r : Byte) : EncodedLength.Statement (.prn r) := by
  simp [EncodedLength.Statement, encode, Instr.operands, Instr.width, widthOfOpcode, Instr.opcode]
theorem EncodedLength.call (r : Byte) : EncodedLength.Statement (.call r) := by
  simp [EncodedLength.Statement, encode, Instr.operands, Instr.width, widthOfOpcode, Instr.opcode]
theorem EncodedLength.jmp (r : Byte) : EncodedLength.Statement (.jmp r) := by
  simp [EncodedLength.Statement, encode, Instr.operands, Instr.width, widthOfOpcode, Instr.opcode]
theorem EncodedLength.jeq (r : Byte) : EncodedLength.Statement (.jeq r) := by
  simp [EncodedLength.Statement, encode, Instr.operands, Instr.width, widthOfOpcode, Instr.opcode]
theorem EncodedLength.jne (r : Byte) : EncodedLength.Statement (.jne r) := by
  simp [EncodedLength.Statement, encode, Instr.operands, Instr.width, widthOfOpcode, Instr.opcode]
theorem EncodedLength.not (r : Byte) : EncodedLength.Statement (.not r) := by
  simp [EncodedLength.Statement, encode, Instr.operands, Instr.width, widthOfOpcode, Instr.opcode]
theorem EncodedLength.ldi (r imm : Byte) : EncodedLength.Statement (.ldi r imm) := by
  simp [EncodedLength.Statement, encode, Instr.operands, Instr.width, widthOfOpcode, Instr.opcode]
theorem EncodedLength.add (ra rb : Byte) : EncodedLength.Statement (.add ra rb) := by
  simp [EncodedLength.Statement, encode, Instr.operands, Instr.width, widthOfOpcode, Instr.opcode]
theorem EncodedLength.mul (ra rb : Byte) : EncodedLength.Statement (.mul ra rb) := by
  simp [EncodedLength.Statement, encode, Instr.operands, Instr.width, widthOfOpcode, Instr.opcode]
theorem EncodedLength.mod (ra rb : Byte) : EncodedLength.Statement (.mod ra rb) := by
  simp [EncodedLength.Statement, encode, Instr.operands, Instr.width, widthOfOpcode, Instr.opcode]
theorem EncodedLength.cmp (ra rb : Byte) : EncodedLength.Statement (.cmp ra rb) := by
  simp [EncodedLength.Statement, encode, Instr.operands, Instr.width, widthOfOpcode, Instr.opcode]
theorem EncodedLength.and (ra rb : Byte) : EncodedLength.Statement (.and ra rb) := by
  simp [EncodedLength.Statement, encode, Instr.operands, Instr.width, widthOfOpcode, Instr.opcode]
theorem EncodedLength.or (ra rb : Byte) : EncodedLength.Statement (.or ra rb) := by
  simp [EncodedLength.Statement, encode, Instr.operands, Instr.width, widthOfOpcode, Instr.opcode]
theorem EncodedLength.xor (ra rb : Byte) : EncodedLength.Statement (.xor ra rb) := by
  simp [EncodedLength.Statement, encode, Instr.operands, Instr.width, widthOfOpcode, Instr.opcode]
theorem EncodedLength.shl (ra rb : Byte) : EncodedLength.Statement (.shl ra rb) := by
  simp [EncodedLength.Statement, encode, Instr.operands, Instr.width, widthOfOpcode, Instr.opcode]
theorem EncodedLength.shr (ra rb : Byte) : EncodedLength.Statement (.shr ra rb) := by
  simp [EncodedLength.Statement, encode, Instr.operands, Instr.width, widthOfOpcode, Instr.opcode]

end Sys2Proof.Laws
end

