-- ==== Sys2Proof/Laws/Decode.lean ====
section
/-! SUPPORT. The decoder and the lengths: what a decoded instruction says of its bytes, and what a rejection says. -/

namespace Sys2Proof

/-- The decoder rejects for one reason only. -/
theorem decode_error {op a b : Byte} {e : DecodeError} (h : decode op a b = .error e) : e = .unsupportedOpcode op := by
  unfold decode at h
  split at h <;> cases h
  rfl

/-- Whether an opcode byte is supported does not depend on the operand bytes. -/
theorem decode_error_any {op a b : Byte} {e : DecodeError} (h : decode op a b = .error e) (a' b' : Byte) :
    decode op a' b' = .error (.unsupportedOpcode op) := by
  unfold decode at h ⊢
  split at h <;> cases h
  rfl

/-- What is decoded carries the opcode byte it was decoded from. -/
theorem opcode_of_decode {op a b : Byte} {i : Instr} (h : decode op a b = .ok i) : i.opcode = op := by
  unfold decode at h
  split at h <;> cases h <;> rfl

/-- The opcode byte of an instruction and its operand bytes decode to it, whatever stands where it has no operand. -/
theorem decode_operands (i : Instr) (a b : Byte) :
    decode i.opcode (i.operands.getD 0 a) (i.operands.getD 1 b) = .ok i := by
  cases i <;> rfl

/-- The length of an instruction is one more than its operand bytes (R50, R51). -/
theorem Instr.width_eq (i : Instr) : i.width = i.operands.length + 1 := by
  cases i <;> simp [Instr.width, widthOfOpcode, Instr.opcode, Instr.operands]

theorem Instr.width_pos (i : Instr) : 0 < i.width := by rw [i.width_eq]; omega

theorem Instr.width_le (i : Instr) : i.width ≤ 3 := by
  cases i <;> simp [Instr.width, widthOfOpcode, Instr.opcode]

theorem length_encode (i : Instr) : (encode i).length = i.width := by
  rw [i.width_eq]; rfl

end Sys2Proof
end

