-- ==== Sys2Proof/Laws/State.lean ====
section
/-! SUPPORT. One lemma per field per update of the state, and what a register, a memory byte and a fetch read after each
update, so that no later proof unfolds a record update. -/

namespace Sys2Proof.Machine

/-! ### setReg -/

@[simp] theorem State.setReg_x (s : State) (i : RegId) (v : Byte) : (s.setReg i v).x = s.x.set i.val v i.isLt := rfl
@[simp] theorem State.setReg_pc (s : State) (i : RegId) (v : Byte) : (s.setReg i v).pc = s.pc := rfl
@[simp] theorem State.setReg_sp (s : State) (i : RegId) (v : Byte) : (s.setReg i v).sp = s.sp := rfl
@[simp] theorem State.setReg_fl (s : State) (i : RegId) (v : Byte) : (s.setReg i v).fl = s.fl := rfl
@[simp] theorem State.setReg_run (s : State) (i : RegId) (v : Byte) : (s.setReg i v).run = s.run := rfl
@[simp] theorem State.setReg_fault (s : State) (i : RegId) (v : Byte) : (s.setReg i v).fault = s.fault := rfl
@[simp] theorem State.setReg_mem (s : State) (i : RegId) (v : Byte) : (s.setReg i v).mem = s.mem := rfl
@[simp] theorem State.setReg_out (s : State) (i : RegId) (v : Byte) : (s.setReg i v).out = s.out := rfl
@[simp] theorem State.setReg_memRead (s : State) (i : RegId) (v : Byte) (p : Addr) : (s.setReg i v).memRead p = s.memRead p := rfl
@[simp] theorem State.setReg_fetchOperand (s : State) (i : RegId) (v : Byte) (p : PcWord) :
    fetchOperand (s.setReg i v) p = fetchOperand s p := rfl

/-! ### advance -/

@[simp] theorem State.advance_x (s : State) (n : Nat) : (s.advance n).x = s.x := rfl
@[simp] theorem State.advance_pc (s : State) (n : Nat) : (s.advance n).pc = s.pc + BitVec.ofNat 9 n := rfl
@[simp] theorem State.advance_sp (s : State) (n : Nat) : (s.advance n).sp = s.sp := rfl
@[simp] theorem State.advance_fl (s : State) (n : Nat) : (s.advance n).fl = s.fl := rfl
@[simp] theorem State.advance_run (s : State) (n : Nat) : (s.advance n).run = s.run := rfl
@[simp] theorem State.advance_fault (s : State) (n : Nat) : (s.advance n).fault = s.fault := rfl
@[simp] theorem State.advance_mem (s : State) (n : Nat) : (s.advance n).mem = s.mem := rfl
@[simp] theorem State.advance_out (s : State) (n : Nat) : (s.advance n).out = s.out := rfl
@[simp] theorem State.advance_reg (s : State) (n : Nat) (i : RegId) : (s.advance n).reg i = s.reg i := rfl
@[simp] theorem State.advance_memRead (s : State) (n : Nat) (p : Addr) : (s.advance n).memRead p = s.memRead p := rfl
@[simp] theorem State.advance_fetchOperand (s : State) (n : Nat) (p : PcWord) :
    fetchOperand (s.advance n) p = fetchOperand s p := rfl

/-! ### redirect -/

@[simp] theorem State.redirect_x (s : State) (t : Byte) : (s.redirect t).x = s.x := rfl
@[simp] theorem State.redirect_pc (s : State) (t : Byte) : (s.redirect t).pc = t.setWidth 9 := rfl
@[simp] theorem State.redirect_sp (s : State) (t : Byte) : (s.redirect t).sp = s.sp := rfl
@[simp] theorem State.redirect_fl (s : State) (t : Byte) : (s.redirect t).fl = s.fl := rfl
@[simp] theorem State.redirect_run (s : State) (t : Byte) : (s.redirect t).run = s.run := rfl
@[simp] theorem State.redirect_fault (s : State) (t : Byte) : (s.redirect t).fault = s.fault := rfl
@[simp] theorem State.redirect_mem (s : State) (t : Byte) : (s.redirect t).mem = s.mem := rfl
@[simp] theorem State.redirect_out (s : State) (t : Byte) : (s.redirect t).out = s.out := rfl
@[simp] theorem State.redirect_reg (s : State) (t : Byte) (i : RegId) : (s.redirect t).reg i = s.reg i := rfl
@[simp] theorem State.redirect_memRead (s : State) (t : Byte) (p : Addr) : (s.redirect t).memRead p = s.memRead p := rfl
@[simp] theorem State.redirect_fetchOperand (s : State) (t : Byte) (p : PcWord) :
    fetchOperand (s.redirect t) p = fetchOperand s p := rfl

/-! ### setSp -/

@[simp] theorem State.setSp_x (s : State) (v : Addr) : (s.setSp v).x = s.x := rfl
@[simp] theorem State.setSp_pc (s : State) (v : Addr) : (s.setSp v).pc = s.pc := rfl
@[simp] theorem State.setSp_sp (s : State) (v : Addr) : (s.setSp v).sp = v := rfl
@[simp] theorem State.setSp_fl (s : State) (v : Addr) : (s.setSp v).fl = s.fl := rfl
@[simp] theorem State.setSp_run (s : State) (v : Addr) : (s.setSp v).run = s.run := rfl
@[simp] theorem State.setSp_fault (s : State) (v : Addr) : (s.setSp v).fault = s.fault := rfl
@[simp] theorem State.setSp_mem (s : State) (v : Addr) : (s.setSp v).mem = s.mem := rfl
@[simp] theorem State.setSp_out (s : State) (v : Addr) : (s.setSp v).out = s.out := rfl
@[simp] theorem State.setSp_reg (s : State) (v : Addr) (i : RegId) : (s.setSp v).reg i = s.reg i := rfl
@[simp] theorem State.setSp_memRead (s : State) (v : Addr) (p : Addr) : (s.setSp v).memRead p = s.memRead p := rfl
@[simp] theorem State.setSp_fetchOperand (s : State) (v : Addr) (p : PcWord) :
    fetchOperand (s.setSp v) p = fetchOperand s p := rfl

/-! ### setFlags -/

@[simp] theorem State.setFlags_x (s : State) (f : Flags) : (s.setFlags f).x = s.x := rfl
@[simp] theorem State.setFlags_pc (s : State) (f : Flags) : (s.setFlags f).pc = s.pc := rfl
@[simp] theorem State.setFlags_sp (s : State) (f : Flags) : (s.setFlags f).sp = s.sp := rfl
@[simp] theorem State.setFlags_fl (s : State) (f : Flags) : (s.setFlags f).fl = f := rfl
@[simp] theorem State.setFlags_run (s : State) (f : Flags) : (s.setFlags f).run = s.run := rfl
@[simp] theorem State.setFlags_fault (s : State) (f : Flags) : (s.setFlags f).fault = s.fault := rfl
@[simp] theorem State.setFlags_mem (s : State) (f : Flags) : (s.setFlags f).mem = s.mem := rfl
@[simp] theorem State.setFlags_out (s : State) (f : Flags) : (s.setFlags f).out = s.out := rfl
@[simp] theorem State.setFlags_reg (s : State) (f : Flags) (i : RegId) : (s.setFlags f).reg i = s.reg i := rfl
@[simp] theorem State.setFlags_memRead (s : State) (f : Flags) (p : Addr) : (s.setFlags f).memRead p = s.memRead p := rfl
@[simp] theorem State.setFlags_fetchOperand (s : State) (f : Flags) (p : PcWord) :
    fetchOperand (s.setFlags f) p = fetchOperand s p := rfl

/-! ### halt -/

@[simp] theorem State.halt_x (s : State) : (s.halt).x = s.x := rfl
@[simp] theorem State.halt_pc (s : State) : (s.halt).pc = s.pc := rfl
@[simp] theorem State.halt_sp (s : State) : (s.halt).sp = s.sp := rfl
@[simp] theorem State.halt_fl (s : State) : (s.halt).fl = s.fl := rfl
@[simp] theorem State.halt_run (s : State) : (s.halt).run = false := rfl
@[simp] theorem State.halt_fault (s : State) : (s.halt).fault = s.fault := rfl
@[simp] theorem State.halt_mem (s : State) : (s.halt).mem = s.mem := rfl
@[simp] theorem State.halt_out (s : State) : (s.halt).out = s.out := rfl
@[simp] theorem State.halt_reg (s : State) (i : RegId) : (s.halt).reg i = s.reg i := rfl
@[simp] theorem State.halt_memRead (s : State) (p : Addr) : (s.halt).memRead p = s.memRead p := rfl
@[simp] theorem State.halt_fetchOperand (s : State) (p : PcWord) :
    fetchOperand (s.halt) p = fetchOperand s p := rfl

/-! ### emit -/

@[simp] theorem State.emit_x (s : State) (v : Byte) : (s.emit v).x = s.x := rfl
@[simp] theorem State.emit_pc (s : State) (v : Byte) : (s.emit v).pc = s.pc := rfl
@[simp] theorem State.emit_sp (s : State) (v : Byte) : (s.emit v).sp = s.sp := rfl
@[simp] theorem State.emit_fl (s : State) (v : Byte) : (s.emit v).fl = s.fl := rfl
@[simp] theorem State.emit_run (s : State) (v : Byte) : (s.emit v).run = s.run := rfl
@[simp] theorem State.emit_fault (s : State) (v : Byte) : (s.emit v).fault = s.fault := rfl
@[simp] theorem State.emit_mem (s : State) (v : Byte) : (s.emit v).mem = s.mem := rfl
@[simp] theorem State.emit_out (s : State) (v : Byte) : (s.emit v).out = s.out ++ [v] := rfl
@[simp] theorem State.emit_reg (s : State) (v : Byte) (i : RegId) : (s.emit v).reg i = s.reg i := rfl
@[simp] theorem State.emit_memRead (s : State) (v : Byte) (p : Addr) : (s.emit v).memRead p = s.memRead p := rfl
@[simp] theorem State.emit_fetchOperand (s : State) (v : Byte) (p : PcWord) :
    fetchOperand (s.emit v) p = fetchOperand s p := rfl

/-! ### latch -/

@[simp] theorem State.latch_x (s : State) (e : ErrorRecord) : (s.latch e).x = s.x := rfl
@[simp] theorem State.latch_pc (s : State) (e : ErrorRecord) : (s.latch e).pc = s.pc := rfl
@[simp] theorem State.latch_sp (s : State) (e : ErrorRecord) : (s.latch e).sp = s.sp := rfl
@[simp] theorem State.latch_fl (s : State) (e : ErrorRecord) : (s.latch e).fl = s.fl := rfl
@[simp] theorem State.latch_run (s : State) (e : ErrorRecord) : (s.latch e).run = s.run := rfl
@[simp] theorem State.latch_fault (s : State) (e : ErrorRecord) : (s.latch e).fault = some e := rfl
@[simp] theorem State.latch_mem (s : State) (e : ErrorRecord) : (s.latch e).mem = s.mem := rfl
@[simp] theorem State.latch_out (s : State) (e : ErrorRecord) : (s.latch e).out = s.out := rfl
@[simp] theorem State.latch_reg (s : State) (e : ErrorRecord) (i : RegId) : (s.latch e).reg i = s.reg i := rfl
@[simp] theorem State.latch_memRead (s : State) (e : ErrorRecord) (p : Addr) : (s.latch e).memRead p = s.memRead p := rfl
@[simp] theorem State.latch_fetchOperand (s : State) (e : ErrorRecord) (p : PcWord) :
    fetchOperand (s.latch e) p = fetchOperand s p := rfl

/-! ### memWrite -/

@[simp] theorem State.memWrite_x (s : State) (a : Addr) (v : Byte) : (s.memWrite a v).x = s.x := rfl
@[simp] theorem State.memWrite_pc (s : State) (a : Addr) (v : Byte) : (s.memWrite a v).pc = s.pc := rfl
@[simp] theorem State.memWrite_sp (s : State) (a : Addr) (v : Byte) : (s.memWrite a v).sp = s.sp := rfl
@[simp] theorem State.memWrite_fl (s : State) (a : Addr) (v : Byte) : (s.memWrite a v).fl = s.fl := rfl
@[simp] theorem State.memWrite_run (s : State) (a : Addr) (v : Byte) : (s.memWrite a v).run = s.run := rfl
@[simp] theorem State.memWrite_fault (s : State) (a : Addr) (v : Byte) : (s.memWrite a v).fault = s.fault := rfl
@[simp] theorem State.memWrite_mem (s : State) (a : Addr) (v : Byte) : (s.memWrite a v).mem = s.mem.setByte a.toNat v := rfl
@[simp] theorem State.memWrite_out (s : State) (a : Addr) (v : Byte) : (s.memWrite a v).out = s.out := rfl
@[simp] theorem State.memWrite_reg (s : State) (a : Addr) (v : Byte) (i : RegId) : (s.memWrite a v).reg i = s.reg i := rfl

/-! ### Record updates

A state written as a record with another's registers, or another's memory, reads them as that other does. -/

@[simp] theorem State.reg_mk (s : State) (pc : PcWord) (sp : Addr) (fl : Flags) (run : Bool)
    (fault : Option ErrorRecord) (mem : Memory) (out : List Byte) (i : RegId) :
    (State.mk s.x pc sp fl run fault mem out).reg i = s.reg i := rfl

@[simp] theorem State.memRead_mk (s : State) (x : Vector Byte 8) (pc : PcWord) (sp : Addr) (fl : Flags) (run : Bool)
    (fault : Option ErrorRecord) (out : List Byte) (a : Addr) :
    (State.mk x pc sp fl run fault s.mem out).memRead a = s.memRead a := rfl

@[simp] theorem State.fetchOperand_mk (s : State) (x : Vector Byte 8) (pc : PcWord) (sp : Addr) (fl : Flags)
    (run : Bool) (fault : Option ErrorRecord) (out : List Byte) (p : PcWord) :
    fetchOperand (State.mk x pc sp fl run fault s.mem out) p = fetchOperand s p := rfl

/-! ### Registers -/

/-- A write puts the value into the register named and leaves every other register. -/
theorem State.reg_setReg (s : State) (i j : RegId) (v : Byte) :
    (s.setReg i v).reg j = if i = j then v else s.reg j := by
  simp [State.reg, State.setReg, Vector.get_eq_getElem, Vector.getElem_set, Fin.ext_iff]

@[simp] theorem State.reg_setReg_self (s : State) (i : RegId) (v : Byte) : (s.setReg i v).reg i = v := by
  simp [State.reg_setReg]

theorem State.reg_setReg_of_ne (s : State) {i j : RegId} (v : Byte) (h : i ≠ j) :
    (s.setReg i v).reg j = s.reg j := by
  simp [State.reg_setReg, h]

/-- Two register files with equal registers are equal. -/
theorem State.x_ext {s t : State} (h : ∀ i, s.reg i = t.reg i) : s.x = t.x := by
  apply Vector.ext
  intro i hi
  simpa [State.reg, Vector.get_eq_getElem] using h ⟨i, hi⟩

end Sys2Proof.Machine
end

