-- ==== Sys2Proof/Laws/Memory.lean ====
section
/-! SUPPORT. Memory: read after write, the canonical form is kept by every operation, and canonical memories that read
alike are equal (spec/20_memory.md R32, R33, R43). -/

namespace Sys2Proof.Machine

/-! ### Reading after writing -/

/-- An address below every listed one reads as its reset value. -/
theorem Memory.byteAt_of_lt {m : Memory} {a : Nat} (h : ∀ c ∈ m, a < c.1) : m.byteAt a = Config.memReset := by
  induction m with
  | nil => rfl
  | cons c m ih =>
    have hne : c.1 ≠ a := by have := h c (by simp); omega
    simp only [Memory.byteAt, hne, if_false]
    exact ih fun d hd => h d (by simp [hd])

/-- Setting a byte sets the byte at its address and no other byte. -/
theorem Memory.byteAt_setByte {m : Memory} (h : m.Pairwise (fun p q => p.1 < q.1)) (a b : Nat) (v : Byte) :
    (m.setByte a v).byteAt b = if a = b then v else m.byteAt b := by
  induction m with
  | nil =>
    by_cases hv : v = Config.memReset <;> by_cases hab : a = b <;> simp [Memory.setByte, Memory.byteAt, hv, hab]
  | cons c m ih =>
    obtain ⟨k, w⟩ := c
    obtain ⟨hk, hm⟩ := List.pairwise_cons.mp h
    have below : ∀ {n}, n ≤ k → Memory.byteAt m n = Config.memReset := fun hn =>
      Memory.byteAt_of_lt fun d hd => lt_of_le_of_lt hn (hk d hd)
    by_cases hab : a = b
    · subst hab
      rw [if_pos rfl]
      unfold Memory.setByte
      split_ifs with h1 h2 h3 h4
      · simp [Memory.byteAt, show k ≠ a by omega, h2, below (by omega : a ≤ k)]
      · simp [Memory.byteAt]
      · subst h3; rw [h4, below (le_refl a)]
      · simp [Memory.byteAt]
      · simpa [Memory.byteAt, show k ≠ a by omega] using ih hm
    · rw [if_neg hab]
      rw [if_neg hab] at ih
      unfold Memory.setByte
      split_ifs with h1 h2 h3 h4
      · rfl
      · simp [Memory.byteAt, hab]
      · subst h3; simp [Memory.byteAt, hab]
      · subst h3; simp [Memory.byteAt, hab]
      · simp only [Memory.byteAt, ih hm]

/-! ### The canonical form -/

/-- Where a write may put an entry: at its address or where one was. -/
theorem Memory.mem_setByte {m : Memory} {a : Nat} {v : Byte} {c : Host.Cell} (h : c ∈ m.setByte a v) :
    (c = (a, v) ∧ v ≠ Config.memReset) ∨ c ∈ m := by
  induction m with
  | nil => unfold Memory.setByte at h; split_ifs at h <;> simp_all
  | cons d m ih =>
    obtain ⟨k, w⟩ := d
    unfold Memory.setByte at h
    split_ifs at h
    all_goals simp only [List.mem_cons] at h ⊢
    all_goals tauto

/-- A write keeps the canonical form. -/
theorem Memory.setByte_wf {m : Memory} (h : m.wf) {a : Nat} (ha : a < Config.memSize) (v : Byte) : (m.setByte a v).wf := by
  refine ⟨?_, fun c hc => ?_⟩
  · obtain ⟨hp, -⟩ := h
    induction m with
    | nil => unfold Memory.setByte; split_ifs <;> simp
    | cons d m ih =>
      obtain ⟨k, w⟩ := d
      obtain ⟨hk, hm⟩ := List.pairwise_cons.mp hp
      unfold Memory.setByte
      split_ifs with h1 h2 h3 h4
      · exact hp
      · refine List.pairwise_cons.mpr ⟨fun c hc => ?_, hp⟩
        rcases List.mem_cons.mp hc with rfl | hc
        · exact h1
        · exact lt_trans h1 (hk c hc)
      · exact hm
      · exact List.pairwise_cons.mpr ⟨fun c hc => h3 ▸ hk c hc, hm⟩
      · refine List.pairwise_cons.mpr ⟨fun c hc => ?_, ih hm⟩
        rcases Memory.mem_setByte hc with ⟨rfl, -⟩ | hc
        · show k < a; omega
        · exact hk c hc
  · rcases Memory.mem_setByte hc with ⟨rfl, hv⟩ | hc
    · exact ⟨ha, hv⟩
    · exact h.2 c hc

/-- Storing bytes keeps the canonical form: a byte with no place is left out. -/
theorem Memory.setBytes_wf {m : Memory} (h : m.wf) (a : Nat) (vs : List Byte) : (m.setBytes a vs).wf := by
  induction vs generalizing m a with
  | nil => exact h
  | cons v vs ih =>
    unfold Memory.setBytes
    apply ih
    split_ifs with ha
    · exact Memory.setByte_wf h ha v
    · exact h

/-- What an address reads as after bytes are stored from `a` upward. -/
theorem Memory.byteAt_setBytes {m : Memory} (h : m.wf) (a b : Nat) (vs : List Byte) (hb : b < Config.memSize) :
    (m.setBytes a vs).byteAt b = if a ≤ b ∧ b < a + vs.length then vs.getD (b - a) 0 else m.byteAt b := by
  induction vs generalizing m a with
  | nil => rw [if_neg (by simp)]; rfl
  | cons v vs ih =>
    unfold Memory.setBytes
    have hwf : (if a < Config.memSize then m.setByte a v else m).wf := by
      split_ifs with ha
      · exact Memory.setByte_wf h ha v
      · exact h
    have hold : b ≠ a → Memory.byteAt (if a < Config.memSize then m.setByte a v else m) b = m.byteAt b := by
      intro hba
      split_ifs
      · rw [Memory.byteAt_setByte h.1, if_neg (Ne.symm hba)]
      · rfl
    rw [ih hwf]
    rcases lt_trichotomy b a with hlt | heq | hgt
    · have h1 : ¬(a + 1 ≤ b ∧ b < a + 1 + vs.length) := by omega
      have h2 : ¬(a ≤ b ∧ b < a + (v :: vs).length) := by omega
      rw [if_neg h1, if_neg h2, hold (by omega)]
    · subst heq
      have h1 : ¬(b + 1 ≤ b ∧ b < b + 1 + vs.length) := by omega
      rw [if_neg h1, if_pos hb, Memory.byteAt_setByte h.1, if_pos rfl, if_pos ⟨le_refl b, by simp⟩]
      simp
    · have hsub : b - a = (b - (a + 1)) + 1 := by omega
      rw [hold (by omega), hsub]
      by_cases hin : b < a + 1 + vs.length
      · rw [if_pos ⟨hgt, hin⟩, if_pos ⟨by omega, by simp; omega⟩]; simp
      · have h1 : ¬(a + 1 ≤ b ∧ b < a + 1 + vs.length) := by omega
        have h2 : ¬(a ≤ b ∧ b < a + (v :: vs).length) := by simp; omega
        rw [if_neg h1, if_neg h2]

/-- Canonical memories that read alike at every address are equal. -/
theorem Memory.ext_of_wf {m n : Memory} (hm : m.wf) (hn : n.wf) (h : ∀ a, m.byteAt a = n.byteAt a) : m = n := by
  induction m generalizing n with
  | nil =>
    cases n with
    | nil => rfl
    | cons d n =>
      exact absurd (by simpa [Memory.byteAt] using (h d.1).symm) (hn.2 d (by simp)).2
  | cons c m ih =>
    cases n with
    | nil => exact absurd (by simpa [Memory.byteAt] using h c.1) (hm.2 c (by simp)).2
    | cons d n =>
      obtain ⟨k, v⟩ := c
      obtain ⟨l, w⟩ := d
      obtain ⟨hk, hmp⟩ := List.pairwise_cons.mp hm.1
      obtain ⟨hl, hnp⟩ := List.pairwise_cons.mp hn.1
      have hv := (hm.2 (k, v) (by simp)).2
      have hw := (hn.2 (l, w) (by simp)).2
      have hkl : k = l := by
        rcases lt_trichotomy k l with hlt | heq | hgt
        · refine absurd ?_ hv
          have := h k
          rw [Memory.byteAt_of_lt (m := (l, w) :: n) ?_] at this
          · simpa [Memory.byteAt] using this
          · intro c hc
            rcases List.mem_cons.mp hc with rfl | hc
            · exact hlt
            · exact lt_trans hlt (hl c hc)
        · exact heq
        · refine absurd ?_ hw
          have := (h l).symm
          rw [Memory.byteAt_of_lt (m := (k, v) :: m) ?_] at this
          · simpa [Memory.byteAt] using this
          · intro c hc
            rcases List.mem_cons.mp hc with rfl | hc
            · exact hgt
            · exact lt_trans hgt (hk c hc)
      subst hkl
      have hvw : v = w := by simpa [Memory.byteAt] using h k
      subst hvw
      congr 1
      refine ih ⟨hmp, fun c hc => hm.2 c (by simp [hc])⟩ ⟨hnp, fun c hc => hn.2 c (by simp [hc])⟩ fun a => ?_
      by_cases hka : k = a
      · subst hka
        rw [Memory.byteAt_of_lt (fun c hc => hk c hc), Memory.byteAt_of_lt (fun c hc => hl c hc)]
      · simpa [Memory.byteAt, hka] using h a

/-- An address outside memory reads as its reset value in a canonical memory. -/
theorem Memory.byteAt_of_le {m : Memory} (h : m.wf) {a : Nat} (ha : Config.memSize ≤ a) :
    m.byteAt a = Config.memReset := by
  obtain ⟨-, hb⟩ := h
  induction m with
  | nil => rfl
  | cons c m ih =>
    have hc := (hb c (by simp)).1
    simp only [Memory.byteAt, show c.1 ≠ a by omega, if_false]
    exact ih fun d hd => hb d (by simp [hd])

/-! ### The state's memory -/

/-- Memory after reset is canonical. -/
theorem State.reset_mem_wf : State.reset.mem.wf := by decide

/-- `MemWrite` keeps the canonical form. -/
theorem State.memWrite_wf {s : State} (h : s.mem.wf) (a : Addr) (v : Byte) : (s.memWrite a v).mem.wf :=
  Memory.setByte_wf h a.isLt v

/-- `MemRead` after `MemWrite` (R33). -/
theorem State.memRead_memWrite {s : State} (h : s.mem.wf) (a b : Addr) (v : Byte) :
    (s.memWrite a v).memRead b = if a = b then v else s.memRead b := by
  simp [State.memRead, State.memWrite, Memory.byteAt_setByte h.1, BitVec.toNat_inj]

/-- The byte written is the byte read. -/
theorem State.memRead_memWrite_self {s : State} (h : s.mem.wf) (a : Addr) (v : Byte) :
    (s.memWrite a v).memRead a = v := by
  simp [State.memRead_memWrite h]

theorem State.memRead_memWrite_of_ne {s : State} (h : s.mem.wf) {a b : Addr} (v : Byte) (hab : a ≠ b) :
    (s.memWrite a v).memRead b = s.memRead b := by
  simp [State.memRead_memWrite h, hab]

end Sys2Proof.Machine
end

