-- ==== Sys2Proof/Laws/Ops.lean ====
section
/-! SUPPORT. One lemma per shared operation that says everything it can do: the register check, the stack, the ALU shape,
raising an error, the engine's step; and how to prove a frame. -/

namespace Sys2Proof.Machine

/-! ### Raising -/

theorem raise_eq_next {e : ErrorRecord} {s t : State} : raise e s = .next t ↔ t = s.latch e := by
  simp [raise, eq_comm]

/-! ### The register check -/

/-- The byte that is register `i`'s number names register `i`. -/
theorem regIndex_of_toNat {b : Byte} {i : RegId} (h : b.toNat = i.val) : regIndex b = some i := by
  simp [regIndex, h]

theorem regIndex_eq_some {b : Byte} {i : RegId} : regIndex b = some i ↔ b.toNat = i.val := by
  refine ⟨fun h => ?_, regIndex_of_toNat⟩
  unfold regIndex at h
  split at h
  · simp only [Option.some.injEq, Fin.ext_iff] at h; exact h
  · cases h

theorem regIndex_eq_none {b : Byte} : regIndex b = none ↔ 8 ≤ b.toNat := by
  simp [regIndex]

/-- A byte either names a register or is above 7. -/
theorem regIndex_cases (b : Byte) : (∃ i : RegId, b.toNat = i.val ∧ regIndex b = some i) ∨ (8 ≤ b.toNat ∧ regIndex b = none) := by
  rcases Nat.lt_or_ge b.toNat 8 with h | h
  · exact .inl ⟨⟨b.toNat, h⟩, rfl, regIndex_of_toNat rfl⟩
  · exact .inr ⟨h, regIndex_eq_none.mpr h⟩

theorem withReg_of_toNat {b : Byte} {i : RegId} (h : b.toNat = i.val) (s : State) (k : RegId → Result) :
    withReg b s k = k i := by
  simp [withReg, regIndex_of_toNat h]

theorem withReg_of_ge {b : Byte} (h : 8 ≤ b.toNat) (s : State) (k : RegId → Result) :
    withReg b s k = .next (s.latch (.outOfBoundsAccess (b.setWidth 9))) := by
  simp [withReg, regIndex_eq_none.mpr h, raise]

/-- Everything the register check can do. -/
theorem withReg_eq_next {b : Byte} {s t : State} {k : RegId → Result} :
    withReg b s k = .next t ↔
      (∃ i : RegId, b.toNat = i.val ∧ k i = .next t) ∨
      (8 ≤ b.toNat ∧ t = s.latch (.outOfBoundsAccess (b.setWidth 9))) := by
  rcases regIndex_cases b with ⟨i, hi, -⟩ | ⟨h, -⟩
  · rw [withReg_of_toNat hi]
    refine ⟨fun h => .inl ⟨i, hi, h⟩, ?_⟩
    rintro (⟨j, hj, h⟩ | ⟨h, -⟩)
    · rwa [show i = j from Fin.ext (hi ▸ hj)]
    · have := i.isLt; omega
  · rw [withReg_of_ge h]
    refine ⟨fun he => .inr ⟨h, by injection he with he; exact he.symm⟩, ?_⟩
    rintro (⟨j, hj, -⟩ | ⟨-, rfl⟩)
    · have := j.isLt; omega
    · rfl

theorem withRegs_of_toNat {a b : Byte} {i j : RegId} (hi : a.toNat = i.val) (hj : b.toNat = j.val) (s : State)
    (k : RegId → RegId → Result) : withRegs a b s k = k i j := by
  simp [withRegs, withReg_of_toNat hi, withReg_of_toNat hj]

/-- Everything the two register checks can do: the first bad byte is the one reported. -/
theorem withRegs_eq_next {a b : Byte} {s t : State} {k : RegId → RegId → Result} :
    withRegs a b s k = .next t ↔
      (∃ i j : RegId, a.toNat = i.val ∧ b.toNat = j.val ∧ k i j = .next t) ∨
      (a.toNat < 8 ∧ 8 ≤ b.toNat ∧ t = s.latch (.outOfBoundsAccess (b.setWidth 9))) ∨
      (8 ≤ a.toNat ∧ t = s.latch (.outOfBoundsAccess (a.setWidth 9))) := by
  simp only [withRegs, withReg_eq_next]
  constructor
  · rintro (⟨i, hi, ⟨j, hj, h⟩ | ⟨hb, h⟩⟩ | h)
    · exact .inl ⟨i, j, hi, hj, h⟩
    · exact .inr (.inl ⟨hi ▸ i.isLt, hb, h⟩)
    · exact .inr (.inr h)
  · rintro (⟨i, j, hi, hj, h⟩ | ⟨ha, hb, h⟩ | h)
    · exact .inl ⟨i, hi, .inl ⟨j, hj, h⟩⟩
    · exact .inl ⟨⟨_, ha⟩, rfl, .inr ⟨hb, h⟩⟩
    · exact .inr h

/-! ### The stack -/

theorem push_of_ne {s : State} (h : s.sp ≠ 0#8) (v : Byte) (k : State → Result) :
    push v s k = k ((s.setSp (s.sp - 1#8)).memWrite (s.sp - 1#8) v) := by
  simp [push, h]

/-- Everything a push can do. -/
theorem push_eq_next {v : Byte} {s t : State} {k : State → Result} :
    push v s k = .next t ↔
      (s.sp ≠ 0#8 ∧ k ((s.setSp (s.sp - 1#8)).memWrite (s.sp - 1#8) v) = .next t) ∨
      (s.sp = 0#8 ∧ t = s.latch .stackOverflow) := by
  by_cases h : s.sp = 0#8 <;> simp [push, h, raise, eq_comm]

theorem pop_of_ne {s : State} (h : s.sp ≠ 255#8) (k : Byte → State → Result) :
    pop s k = k (s.memRead s.sp) (s.setSp (s.sp + 1#8)) := by
  simp [pop, h]

/-- Everything a pop can do. -/
theorem pop_eq_next {s t : State} {k : Byte → State → Result} :
    pop s k = .next t ↔
      (s.sp ≠ 255#8 ∧ k (s.memRead s.sp) (s.setSp (s.sp + 1#8)) = .next t) ∨
      (s.sp = 255#8 ∧ t = s.latch .stackUnderflow) := by
  by_cases h : s.sp = 255#8 <;> simp [pop, h, raise, eq_comm]

/-! ### The ALU shape -/

theorem aluBinary_of_toNat {a b : Byte} {i j : RegId} (hi : a.toNat = i.val) (hj : b.toNat = j.val)
    (f : Byte → Byte → Byte) (s : State) :
    aluBinary f a b s = .next ((s.setReg i (f (s.reg i) (s.reg j))).advance 3) := by
  simp [aluBinary, withRegs_of_toNat hi hj]

/-- Everything a two-register ALU instruction can do. -/
theorem aluBinary_eq_next {f : Byte → Byte → Byte} {a b : Byte} {s t : State} :
    aluBinary f a b s = .next t ↔
      (∃ i j : RegId, a.toNat = i.val ∧ b.toNat = j.val ∧
        t = (s.setReg i (f (s.reg i) (s.reg j))).advance 3) ∨
      (a.toNat < 8 ∧ 8 ≤ b.toNat ∧ t = s.latch (.outOfBoundsAccess (b.setWidth 9))) ∨
      (8 ≤ a.toNat ∧ t = s.latch (.outOfBoundsAccess (a.setWidth 9))) := by
  simp only [aluBinary, withRegs_eq_next, Host.Outcome.next.injEq]
  constructor <;> rintro (⟨i, j, hi, hj, h⟩ | h) <;> first | exact .inr h | exact .inl ⟨i, j, hi, hj, h.symm⟩

/-- CMP's flags: exactly one of the three. -/
theorem compareFlags_cases (A B : Byte) :
    (A.toNat = B.toNat ∧ compareFlags A B = ⟨true, false, false⟩) ∨
    (A.toNat < B.toNat ∧ compareFlags A B = ⟨false, true, false⟩) ∨
    (B.toNat < A.toNat ∧ compareFlags A B = ⟨false, false, true⟩) := by
  rcases Nat.lt_trichotomy A.toNat B.toNat with h | h | h
  · exact .inr (.inl ⟨h, by simp [compareFlags]; omega⟩)
  · exact .inl ⟨h, by simp [compareFlags, h]⟩
  · exact .inr (.inr ⟨h, by simp [compareFlags]; omega⟩)

/-! ### The engine -/

theorem opcode_of_decodeAt {s : State} {i : Instr} (h : decodeAt s = .ok i) : i.opcode = fetchOpcode s :=
  opcode_of_decode h

theorem step_of_halted {s : State} (h : s.run = false) : step s = .fault .halted := by
  simp [step, engineStep, h]

theorem step_of_faulted {s : State} {e : ErrorRecord} (hr : s.run = true) (hf : s.fault = some e) :
    step s = .fault (.faulted e) := by
  simp [step, engineStep, hr, hf]

theorem step_of_running {s : State} (h : s.Running) : step s = runningStep exec s := by
  simp [step, engineStep, h.1, h.2]

/-- Everything a step that answers a next state can be: an opcode fetch above 255, an unsupported opcode, or the decoded
instruction. -/
theorem step_eq_next {s t : State} :
    step s = .next t ↔ s.Running ∧
      ((255 < s.pc.toNat ∧ t = s.latch (.outOfBoundsAccess s.pc)) ∨
       (s.pc.toNat ≤ 255 ∧ (∃ e, decodeAt s = .error e) ∧ t = s.latch (.unsupportedOpcode (fetchOpcode s) s.pc)) ∨
       (s.pc.toNat ≤ 255 ∧ ∃ i, decodeAt s = .ok i ∧ exec i s = .next t)) := by
  cases hr : s.run
  · simp [step_of_halted hr, State.Running, hr]
  · cases hf : s.fault with
    | some e => simp [step_of_faulted hr hf, State.Running, hf]
    | none =>
      rw [step_of_running ⟨hr, hf⟩]
      unfold runningStep
      by_cases hp : 255 < s.pc.toNat
      · simp [hp, hr, hf, State.Running, raise_eq_next]
      · cases hd : decodeAt s with
        | error e => simp [hp, hr, hf, State.Running, raise_eq_next]; intro; omega
        | ok i => simp [hp, hr, hf, State.Running]; intro; omega

/-! ### Two runs

To show that a change `f` of the state goes through an instruction unharmed, go through its shared operations: each
passes `mapNext f` on to what follows it. -/

@[simp] theorem mapNext_next (f : State → State) (t : State) : mapNext f (.next t) = .next (f t) := rfl

theorem mapNext_raise {f : State → State} {s : State} (hl : ∀ e, f (s.latch e) = (f s).latch e) (e : ErrorRecord) :
    mapNext f (raise e s) = raise e (f s) := by
  simp [raise, hl]

theorem mapNext_withReg {f : State → State} {b : Byte} {s : State} {k k' : RegId → Result}
    (hl : ∀ e, f (s.latch e) = (f s).latch e) (hk : ∀ i : RegId, b.toNat = i.val → mapNext f (k i) = k' i) :
    mapNext f (withReg b s k) = withReg b (f s) k' := by
  rcases regIndex_cases b with ⟨i, hi, -⟩ | ⟨h, -⟩
  · rw [withReg_of_toNat hi, withReg_of_toNat hi, hk i hi]
  · rw [withReg_of_ge h, withReg_of_ge h, mapNext_next, hl]

theorem mapNext_withRegs {f : State → State} {a b : Byte} {s : State} {k k' : RegId → RegId → Result}
    (hl : ∀ e, f (s.latch e) = (f s).latch e)
    (hk : ∀ i j : RegId, a.toNat = i.val → b.toNat = j.val → mapNext f (k i j) = k' i j) :
    mapNext f (withRegs a b s k) = withRegs a b (f s) k' :=
  mapNext_withReg hl fun i hi => mapNext_withReg hl fun j hj => hk i j hi hj

theorem mapNext_push {f : State → State} {v : Byte} {s : State} {k k' : State → Result}
    (hl : ∀ e, f (s.latch e) = (f s).latch e) (hsp : (f s).sp = s.sp)
    (hk : mapNext f (k ((s.setSp (s.sp - 1#8)).memWrite (s.sp - 1#8) v)) =
      k' (((f s).setSp (s.sp - 1#8)).memWrite (s.sp - 1#8) v)) :
    mapNext f (push v s k) = push v (f s) k' := by
  unfold push
  rw [hsp]
  split
  · exact mapNext_raise hl _
  · exact hk

theorem mapNext_pop {f : State → State} {s : State} {k k' : Byte → State → Result}
    (hl : ∀ e, f (s.latch e) = (f s).latch e) (hsp : (f s).sp = s.sp)
    (hk : mapNext f (k (s.memRead s.sp) (s.setSp (s.sp + 1#8))) =
      k' ((f s).memRead s.sp) ((f s).setSp (s.sp + 1#8))) :
    mapNext f (pop s k) = pop (f s) k' := by
  unfold pop
  rw [hsp]
  split
  · exact mapNext_raise hl _
  · exact hk

/-! ### Frames -/

/-- A frame from the fields: unlisted registers and bytes read the same, and each unlisted field is equal. -/
theorem OnlyChanges.intro {touched : List Piece} {s t : State}
    (hreg : ∀ i, .reg i ∉ touched → t.reg i = s.reg i) (hpc : .pc ∉ touched → t.pc = s.pc)
    (hsp : .sp ∉ touched → t.sp = s.sp) (hfl : .flags ∉ touched → t.fl = s.fl)
    (hrun : .run ∉ touched → t.run = s.run) (hfault : .fault ∉ touched → t.fault = s.fault)
    (hout : .out ∉ touched → t.out = s.out) (hmem : ∀ a, .byte a ∉ touched → t.memRead a = s.memRead a) :
    OnlyChanges touched s t := by
  intro p hp
  cases p with
  | reg i => exact hreg i hp
  | pc => exact hpc hp
  | sp => exact hsp hp
  | flags => exact hfl hp
  | run => exact hrun hp
  | fault => exact hfault hp
  | out => exact hout hp
  | byte a => exact hmem a hp

end Sys2Proof.Machine
end

