-- ==== Sys2Proof/Laws/Exec.lean ====
section
/-! SUPPORT. One inversion lemma per instruction: exactly which next states it answers. Every later fact about what an
instruction writes, raises or leaves alone follows from these without unfolding a meaning. -/

namespace Sys2Proof.Machine

theorem exec_nop_iff {s t : State} : exec .nop s = .next t ↔ t = s.advance 1 := by
  simp [exec, execNop, eq_comm]

theorem exec_hlt_iff {s t : State} : exec .hlt s = .next t ↔ t = s.halt.advance 1 := by
  simp [exec, execHlt, eq_comm]

theorem exec_prn_iff {r : Byte} {s t : State} :
    exec (.prn r) s = .next t ↔
      (∃ i : RegId, r.toNat = i.val ∧ t = (s.emit (s.reg i)).advance 2) ∨
      (8 ≤ r.toNat ∧ t = s.latch (.outOfBoundsAccess (r.setWidth 9))) := by
  simp only [exec, execPrn, withReg_eq_next, Host.Outcome.next.injEq, @eq_comm _ _ t]

theorem exec_ldi_iff {r imm : Byte} {s t : State} :
    exec (.ldi r imm) s = .next t ↔
      (∃ i : RegId, r.toNat = i.val ∧ t = (s.setReg i imm).advance 3) ∨
      (8 ≤ r.toNat ∧ t = s.latch (.outOfBoundsAccess (r.setWidth 9))) := by
  simp only [exec, execLdi, withReg_eq_next, Host.Outcome.next.injEq, @eq_comm _ _ t]

theorem exec_push_iff {r : Byte} {s t : State} :
    exec (.push r) s = .next t ↔
      (∃ i : RegId, r.toNat = i.val ∧
        ((s.sp ≠ 0#8 ∧ t = ((s.setSp (s.sp - 1#8)).memWrite (s.sp - 1#8) (s.reg i)).advance 2) ∨
         (s.sp = 0#8 ∧ t = s.latch .stackOverflow))) ∨
      (8 ≤ r.toNat ∧ t = s.latch (.outOfBoundsAccess (r.setWidth 9))) := by
  simp only [exec, execPush, withReg_eq_next, push_eq_next, Host.Outcome.next.injEq, @eq_comm _ _ t]

theorem exec_pop_iff {r : Byte} {s t : State} :
    exec (.pop r) s = .next t ↔
      (∃ i : RegId, r.toNat = i.val ∧
        ((s.sp ≠ 255#8 ∧ t = ((s.setSp (s.sp + 1#8)).setReg i (s.memRead s.sp)).advance 2) ∨
         (s.sp = 255#8 ∧ t = s.latch .stackUnderflow))) ∨
      (8 ≤ r.toNat ∧ t = s.latch (.outOfBoundsAccess (r.setWidth 9))) := by
  simp only [exec, execPop, withReg_eq_next, pop_eq_next, Host.Outcome.next.injEq, @eq_comm _ _ t]

theorem exec_call_iff {r : Byte} {s t : State} :
    exec (.call r) s = .next t ↔
      (∃ i : RegId, r.toNat = i.val ∧
        ((255 < (s.pc + 2#9).toNat ∧ t = s.latch (.outOfBoundsAccess (s.pc + 2#9))) ∨
         ((s.pc + 2#9).toNat ≤ 255 ∧ s.sp ≠ 0#8 ∧
           t = ((s.setSp (s.sp - 1#8)).memWrite (s.sp - 1#8) ((s.pc + 2#9).setWidth 8)).redirect (s.reg i)) ∨
         ((s.pc + 2#9).toNat ≤ 255 ∧ s.sp = 0#8 ∧ t = s.latch .stackOverflow))) ∨
      (8 ≤ r.toNat ∧ t = s.latch (.outOfBoundsAccess (r.setWidth 9))) := by
  simp only [exec, execCall, withReg_eq_next]
  refine or_congr (exists_congr fun i => and_congr Iff.rfl ?_) Iff.rfl
  by_cases h : 255 < (s.pc + 2#9).toNat
  · have h' : ¬(s.pc + 2#9).toNat ≤ 255 := by omega
    rw [if_pos h, raise_eq_next]
    simp only [h, h', true_and, false_and, or_false]
  · have h' : (s.pc + 2#9).toNat ≤ 255 := by omega
    rw [if_neg h, push_eq_next, Host.Outcome.next.injEq, @eq_comm _ _ t]
    simp only [h, h', true_and, false_and, false_or]

theorem exec_ret_iff {s t : State} :
    exec .ret s = .next t ↔
      (s.sp ≠ 255#8 ∧ t = (s.setSp (s.sp + 1#8)).redirect (s.memRead s.sp)) ∨
      (s.sp = 255#8 ∧ t = s.latch .stackUnderflow) := by
  simp only [exec, execRet, pop_eq_next, Host.Outcome.next.injEq, @eq_comm _ _ t]

theorem exec_jmp_iff {r : Byte} {s t : State} :
    exec (.jmp r) s = .next t ↔
      (∃ i : RegId, r.toNat = i.val ∧ t = s.redirect (s.reg i)) ∨
      (8 ≤ r.toNat ∧ t = s.latch (.outOfBoundsAccess (r.setWidth 9))) := by
  simp only [exec, execJmp, withReg_eq_next, Host.Outcome.next.injEq, @eq_comm _ _ t]

theorem exec_jeq_iff {r : Byte} {s t : State} :
    exec (.jeq r) s = .next t ↔
      (∃ i : RegId, r.toNat = i.val ∧ t = if s.fl.e then s.redirect (s.reg i) else s.advance 2) ∨
      (8 ≤ r.toNat ∧ t = s.latch (.outOfBoundsAccess (r.setWidth 9))) := by
  simp only [exec, execJeq, withReg_eq_next, Host.Outcome.next.injEq, @eq_comm _ _ t]

theorem exec_jne_iff {r : Byte} {s t : State} :
    exec (.jne r) s = .next t ↔
      (∃ i : RegId, r.toNat = i.val ∧ t = if s.fl.e then s.advance 2 else s.redirect (s.reg i)) ∨
      (8 ≤ r.toNat ∧ t = s.latch (.outOfBoundsAccess (r.setWidth 9))) := by
  simp only [exec, execJne, withReg_eq_next, Host.Outcome.next.injEq, @eq_comm _ _ t]

theorem exec_not_iff {r : Byte} {s t : State} :
    exec (.not r) s = .next t ↔
      (∃ i : RegId, r.toNat = i.val ∧ t = (s.setReg i (s.reg i ^^^ 0xFF#8)).advance 2) ∨
      (8 ≤ r.toNat ∧ t = s.latch (.outOfBoundsAccess (r.setWidth 9))) := by
  simp only [exec, execNot, withReg_eq_next, Host.Outcome.next.injEq, @eq_comm _ _ t]

theorem exec_mod_iff {ra rb : Byte} {s t : State} :
    exec (.mod ra rb) s = .next t ↔
      (∃ i j : RegId, ra.toNat = i.val ∧ rb.toNat = j.val ∧
        ((s.reg j = 0#8 ∧ t = s.latch (.divisionByZero s.pc)) ∨
         (s.reg j ≠ 0#8 ∧
           t = (s.setReg i (BitVec.ofNat 8 ((s.reg i).toNat % (s.reg j).toNat))).advance 3))) ∨
      (ra.toNat < 8 ∧ 8 ≤ rb.toNat ∧ t = s.latch (.outOfBoundsAccess (rb.setWidth 9))) ∨
      (8 ≤ ra.toNat ∧ t = s.latch (.outOfBoundsAccess (ra.setWidth 9))) := by
  simp only [exec, execMod, withRegs_eq_next]
  refine or_congr (exists_congr fun i => exists_congr fun j => and_congr Iff.rfl (and_congr Iff.rfl ?_)) Iff.rfl
  by_cases h : s.reg j = 0#8
  · rw [if_pos h, raise_eq_next]
    simp only [h, true_and, ne_eq, not_true_eq_false, false_and, or_false]
  · rw [if_neg h, Host.Outcome.next.injEq, @eq_comm _ _ t]
    simp only [h, ne_eq, not_false_eq_true, true_and, false_and, false_or]

theorem exec_cmp_iff {ra rb : Byte} {s t : State} :
    exec (.cmp ra rb) s = .next t ↔
      (∃ i j : RegId, ra.toNat = i.val ∧ rb.toNat = j.val ∧
        t = (s.setFlags (compareFlags (s.reg i) (s.reg j))).advance 3) ∨
      (ra.toNat < 8 ∧ 8 ≤ rb.toNat ∧ t = s.latch (.outOfBoundsAccess (rb.setWidth 9))) ∨
      (8 ≤ ra.toNat ∧ t = s.latch (.outOfBoundsAccess (ra.setWidth 9))) := by
  simp only [exec, execCmp, withRegs_eq_next, Host.Outcome.next.injEq, @eq_comm _ _ t]

/-- The function of A and B that ADD, MUL, AND, OR, XOR, SHL and SHR write, none for the others. -/
def aluFunction : Instr → Option (Byte → Byte → Byte)
  | .add _ _ => some fun A B => BitVec.ofNat 8 (A.toNat + B.toNat)
  | .mul _ _ => some fun A B => BitVec.ofNat 8 (A.toNat * B.toNat)
  | .and _ _ => some fun A B => A &&& B
  | .or _ _ => some fun A B => A ||| B
  | .xor _ _ => some fun A B => A ^^^ B
  | .shl _ _ => some fun A B => BitVec.ofNat 8 (A.toNat * 2 ^ shiftAmount B)
  | .shr _ _ => some fun A B => BitVec.ofNat 8 (A.toNat / 2 ^ shiftAmount B)
  | .nop | .hlt | .ret | .push _ | .pop _ | .prn _ | .call _ | .jmp _ | .jeq _ | .jne _ | .not _ | .ldi _ _
  | .mod _ _ | .cmp _ _ => none

/-- The seven instructions of the common ALU shape are that shape with their function. -/
theorem exec_eq_aluBinary {i : Instr} {f : Byte → Byte → Byte} {ra rb : Byte} (hf : aluFunction i = some f)
    (hr : registerBytes i = [ra, rb]) (s : State) : exec i s = aluBinary f ra rb s := by
  cases i <;> cases hf <;> cases hr <;> rfl

/-- The seven instructions of the common ALU shape: exactly which next states they answer. -/
theorem exec_alu_iff {i : Instr} {f : Byte → Byte → Byte} {ra rb : Byte} {s t : State} (hf : aluFunction i = some f)
    (hr : registerBytes i = [ra, rb]) :
    exec i s = .next t ↔
      (∃ k l : RegId, ra.toNat = k.val ∧ rb.toNat = l.val ∧
        t = (s.setReg k (f (s.reg k) (s.reg l))).advance 3) ∨
      (ra.toNat < 8 ∧ 8 ≤ rb.toNat ∧ t = s.latch (.outOfBoundsAccess (rb.setWidth 9))) ∨
      (8 ≤ ra.toNat ∧ t = s.latch (.outOfBoundsAccess (ra.setWidth 9))) := by
  rw [exec_eq_aluBinary hf hr, aluBinary_eq_next]

end Sys2Proof.Machine
end

