-- ==== Sys2Proof/Laws/Run.lean ====
section
/-! SUPPORT. Runs of the host's machine, one step at a time. -/

namespace Sys2Proof.Machine

/-- A run goes on from the next state of its first step. -/
theorem coreRun_succ_of_next {M : Host.Core} {s t : M.State} (h : M.step s = .next t) (n : Nat) :
    M.run (n + 1) s = M.run n t := by
  simp only [Host.Core.run, h]

/-- A run that answers a next state takes a first step that does. -/
theorem coreRun_succ_eq_next {M : Host.Core} {s u : M.State} {n : Nat} :
    M.run (n + 1) s = .next u ↔ ∃ t, M.step s = .next t ∧ M.run n t = .next u := by
  cases h : M.step s <;> simp [Host.Core.run, h]

theorem run_zero (s : State) : Host.Core.run core 0 s = .next s := rfl

theorem run_succ_of_next {s t : State} (h : step s = .next t) (n : Nat) :
    Host.Core.run core (n + 1) s = Host.Core.run core n t :=
  coreRun_succ_of_next (M := core) h n

theorem run_succ_eq_next {s u : State} {n : Nat} :
    Host.Core.run core (n + 1) s = .next u ↔ ∃ t, step s = .next t ∧ Host.Core.run core n t = .next u :=
  coreRun_succ_eq_next (M := core)

end Sys2Proof.Machine
end

