-- ==== Sys2Proof/WellFormed.lean ====
section
/-! DEFINITION. Which instructions are well formed: every register byte names a register, 0..7 (spec/30_encoding.md R53,
R63). An immediate is any byte (R54). An ill-formed instruction still decodes and executes, and raises OutOfBoundsAccess
(R59): well-formedness is the assembler's side condition, not the decoder's. -/

namespace Sys2Proof

/-- The register check of R53: the whole byte, no bit ignored. -/
abbrev regByteOk (b : Byte) : Prop := b.toNat ≤ 7

/-- Every register byte of the instruction is 0..7. -/
def Instr.wellFormed : Instr → Bool
  | .nop | .hlt | .ret => true
  | .push r | .pop r | .prn r | .call r | .jmp r | .jeq r | .jne r | .not r => decide (regByteOk r)
  | .ldi r _ => decide (regByteOk r)
  | .add ra rb | .mul ra rb | .mod ra rb | .cmp ra rb | .and ra rb | .or ra rb | .xor ra rb | .shl ra rb
  | .shr ra rb => decide (regByteOk ra) && decide (regByteOk rb)

end Sys2Proof
end

