-- ==== Sys2Proof/Tests/Slice0.lean ====
section
/-! SUPPORT. Tests: the well-formedness checks, every encoding, the spec's own vectors (spec/95_test_vectors.md, by their
ids), and a witness for every statement of Certificates/Slice0/Obligations.lean that has hypotheses. Expected values are
the spec's. -/

namespace Sys2Proof.Tests

open Sys2Proof.Machine

/-! ### Well-formedness: each register check refuses an ill-formed term (R53, R63) -/

theorem test_wellFormed_refuses_r :
    ([.push 8, .pop 9, .prn 255, .call 8, .jmp 128, .jeq 9, .jne 8, .not 16, .ldi 8 0] : List Instr).all
      (fun i => !i.wellFormed) = true := by decide

theorem test_wellFormed_refuses_ra :
    ([.add 8 0, .mul 9 0, .mod 255 0, .cmp 8 0, .and 128 0, .or 8 0, .xor 16 0, .shl 8 0, .shr 9 0] : List Instr).all
      (fun i => !i.wellFormed) = true := by decide

theorem test_wellFormed_refuses_rb :
    ([.add 0 8, .mul 0 9, .mod 0 255, .cmp 0 8, .and 0 128, .or 0 8, .xor 0 16, .shl 0 8, .shr 0 9] : List Instr).all
      (fun i => !i.wellFormed) = true := by decide

/-- The immediate is not a register index (M2). -/
theorem test_wellFormed_accepts :
    ([.nop, .hlt, .ret, .push 7, .ldi 0 200, .ldi 7 255, .add 7 7, .shr 0 7] : List Instr).all
      Instr.wellFormed = true := by decide

/-! ### Decoding: one word of every instruction, written out from R55 -/

theorem test_decode_system :
    decodeTableWord 8 0b00000000 = some .nop ∧ decodeTableWord 8 0b00000001 = some .hlt ∧
    decodeTableWord 16 (0b01000111 + 256 * 0b00000111) = some (.prn 7) := by decide

theorem test_decode_data :
    decodeTableWord 24 (0b10000010 + 256 * 0b00000111 + 65536 * 0b11111111) = some (.ldi 7 255) ∧
    decodeTableWord 16 (0b01000101 + 256 * 0b00000010) = some (.push 2) ∧
    decodeTableWord 16 (0b01000110 + 256 * 0b00000011) = some (.pop 3) := by decide

theorem test_decode_control :
    decodeTableWord 16 (0b01010000 + 256 * 0b00000001) = some (.call 1) ∧
    decodeTableWord 8 0b00010001 = some .ret ∧
    decodeTableWord 16 (0b01010100 + 256 * 0b00000010) = some (.jmp 2) ∧
    decodeTableWord 16 (0b01010101 + 256 * 0b00000011) = some (.jeq 3) ∧
    decodeTableWord 16 (0b01010110 + 256 * 0b00000100) = some (.jne 4) := by decide

theorem test_decode_arithmetic :
    decodeTableWord 16 (0b01101001 + 256 * 0b00000101) = some (.not 5) ∧
    decodeTableWord 24 (0b10100000 + 256 * 0b00000001 + 65536 * 0b00000010) = some (.add 1 2) ∧
    decodeTableWord 24 (0b10100010 + 256 * 0b00000001 + 65536 * 0b00000010) = some (.mul 1 2) ∧
    decodeTableWord 24 (0b10100100 + 256 * 0b00000001 + 65536 * 0b00000010) = some (.mod 1 2) ∧
    decodeTableWord 24 (0b10100111 + 256 * 0b00000001 + 65536 * 0b00000010) = some (.cmp 1 2) := by decide

theorem test_decode_bitwise :
    decodeTableWord 24 (0b10101000 + 256 * 0b00000001 + 65536 * 0b00000010) = some (.and 1 2) ∧
    decodeTableWord 24 (0b10101010 + 256 * 0b00000001 + 65536 * 0b00000010) = some (.or 1 2) ∧
    decodeTableWord 24 (0b10101011 + 256 * 0b00000001 + 65536 * 0b00000010) = some (.xor 1 2) ∧
    decodeTableWord 24 (0b10101100 + 256 * 0b00000001 + 65536 * 0b00000010) = some (.shl 1 2) ∧
    decodeTableWord 24 (0b10101101 + 256 * 0b00000001 + 65536 * 0b00000010) = some (.shr 1 2) := by decide

/-- E3 to E6: the retired NOT encoding, a small value, and the top quarter are unsupported (R52, R56, R57). -/
theorem test_decode_rejects :
    decodeTableWord 16 0b01010111 = none ∧ decodeTableWord 8 0b00000010 = none ∧
    decodeTableWord 8 0b11000000 = none ∧ decodeTableWord 8 0b11111111 = none := by decide

/-- A byte above the row's bits is an operand byte of 0. -/
theorem test_decode_short_word : decodeTableWord 8 0b10100000 = some (.add 0 0) := by decide

/-- R63: the document's first example. -/
theorem test_encode_example : encode (.ldi 0 8) ++ encode (.prn 0) = [130, 0, 8, 71, 0] := by decide

/-! ### One step on a small state (spec/95_test_vectors.md section 2) -/

/-- The start state of sections 2.1 to 2.5: the registers given there, the bytes at `pc`, the rest as after reset. -/
def start (pc : PcWord) (bytes : List Byte) : State :=
  { State.reset with x := #v[5, 11, 40, 0, 0, 0, 0, 9], pc := pc, mem := Memory.setBytes [] pc.toNat bytes }

/-- `start` with A in `x[0]` and B in `x[1]`, for the table of section 2.5. -/
def startAB (A B op : Byte) : State :=
  { State.reset with x := #v[A, B, 0, 0, 0, 0, 0, 0], mem := Memory.setBytes [] 0 [op, 0, 1] }

/-- A field of the next state. -/
def after {α : Type} (r : Result) (f : State → α) : Option α :=
  match r with
  | .next t => some (f t)
  | .fault _ => none
  | .refused _ => none

/-- E1, E7. -/
theorem test_nop : after (step (start 10 [0])) (·.pc) = some 11 ∧ after (step (start 255 [0])) (·.pc) = some 256 := by
  decide

/-- E2. -/
theorem test_nop_ignores_operands :
    after (step (start 0 [0, 255, 255])) (fun t => (t.pc, t.fault)) = some (1, none) := by decide

/-- E9: HLT at 255. -/
theorem test_hlt : after (step (start 255 [1])) (fun t => (t.run, t.pc, t.fault)) = some (false, 256, none) := by
  decide

/-- Y5, Y4. -/
theorem test_prn :
    after (step (start 0 [71, 7])) (fun t => (t.out, t.pc)) = some ([9], 2) ∧
    after (step (start 0 [71, 8])) (fun t => (t.out, t.fault)) = some ([], some (.outOfBoundsAccess 8)) := by decide

/-- M2, M4. -/
theorem test_ldi :
    after (step (start 0 [130, 0, 200])) (fun t => (t.reg 0, t.pc)) = some (200, 3) ∧
    after (step (start 0 [130, 8, 1])) (fun t => (t.x, t.fault)) =
      some ((start 0 []).x, some (.outOfBoundsAccess 8)) := by decide

/-- E10: both operands read as 0 above 255 (D4). -/
theorem test_ldi_at_top : after (step (start 255 [130])) (fun t => (t.reg 0, t.pc)) = some (0, 258) := by decide

/-- M5, M6: the second push overwrites the PUSH's own opcode byte. -/
theorem test_push :
    after (step (start 0 [69, 0])) (fun t => (t.sp, t.memRead 254, t.pc)) = some (254, 5, 2) ∧
    after (step ((start 0 [69, 0]).setSp 1)) (fun t => (t.sp, t.memRead 0, t.pc)) = some (0, 5, 2) := by decide

/-- M7, M8. -/
theorem test_push_errors :
    after (step ((start 0 [69, 0]).setSp 0)) (fun t => (t.sp, t.fault)) = some (0, some .stackOverflow) ∧
    after (step ((start 0 [69, 8]).setSp 0)) (·.fault) = some (some (.outOfBoundsAccess 8)) := by decide

/-- M9. -/
theorem test_pop :
    after (step (((start 0 [70, 3]).setSp 254).memWrite 254 77))
      (fun t => (t.reg 3, t.sp, t.memRead 254, t.pc)) = some (77, 255, 77, 2) := by decide

/-- M10, M12. -/
theorem test_pop_errors :
    after (step ((start 0 [70, 3]).memWrite 255 77)) (fun t => (t.reg 3, t.sp, t.fault)) =
      some (0, 255, some .stackUnderflow) ∧
    after (step (start 0 [70, 9])) (·.fault) = some (some (.outOfBoundsAccess 9)) := by decide

/-- T11, T13. -/
theorem test_call :
    after (step (start 6 [80, 1])) (fun t => (t.sp, t.memRead 254, t.pc, t.reg 1)) = some (254, 8, 11, 11) ∧
    after (step (start 253 [80, 1])) (fun t => (t.sp, t.memRead 254, t.pc)) = some (254, 255, 11) := by decide

/-- T14, T15, T16, T17. -/
theorem test_call_errors :
    after (step (start 254 [80, 1])) (·.fault) = some (some (.outOfBoundsAccess 256)) ∧
    after (step (start 255 [80])) (·.fault) = some (some (.outOfBoundsAccess 257)) ∧
    after (step ((start 20 [80, 1]).setSp 0)) (·.fault) = some (some .stackOverflow) ∧
    after (step ((start 254 [80, 8]).setSp 0)) (·.fault) = some (some (.outOfBoundsAccess 8)) := by decide

/-- T18, T19. -/
theorem test_ret :
    after (step (((start 14 [17]).setSp 254).memWrite 254 8)) (fun t => (t.pc, t.sp)) = some (8, 255) ∧
    after (step ((start 14 [17]).memWrite 255 8)) (fun t => (t.pc, t.fault)) =
      some (14, some .stackUnderflow) := by decide

/-- T1, T3. -/
theorem test_jmp :
    after (step (start 20 [84, 2])) (·.pc) = some 40 ∧
    after (step (start 20 [84, 255])) (fun t => (t.pc, t.fault)) = some (20, some (.outOfBoundsAccess 255)) := by
  decide

/-- T4, T5, T7. -/
theorem test_jeq :
    after (step ((start 20 [85, 2]).setFlags ⟨true, false, false⟩)) (·.pc) = some 40 ∧
    after (step ((start 20 [85, 2]).setFlags ⟨false, true, false⟩)) (·.pc) = some 22 ∧
    after (step (start 20 [85, 9])) (·.fault) = some (some (.outOfBoundsAccess 9)) := by decide

/-- T8, T9, T10. -/
theorem test_jne :
    after (step ((start 20 [86, 2]).setFlags ⟨false, false, true⟩)) (·.pc) = some 40 ∧
    after (step (start 20 [86, 2])) (·.pc) = some 40 ∧
    after (step ((start 20 [86, 2]).setFlags ⟨true, false, false⟩)) (·.pc) = some 22 := by decide

/-- A1, A2. -/
theorem test_not :
    after (step (start 0 [105, 3])) (fun t => (t.reg 3, t.pc)) = some (255, 2) ∧
    after (step (start 0 [105, 0])) (·.reg 0) = some 250 := by decide

/-- Section 2.5, rows (250, 10) and (5, 255); A5. -/
theorem test_add :
    after (step (startAB 250 10 160)) (fun t => (t.reg 0, t.pc)) = some (4, 3) ∧
    after (step (startAB 5 255 160)) (·.reg 0) = some 4 ∧
    after (step (start 0 [160, 0, 0])) (·.reg 0) = some 10 := by decide

/-- A9: the first operand is the one reported. -/
theorem test_add_bad_index :
    after (step (start 0 [160, 9, 200])) (·.fault) = some (some (.outOfBoundsAccess 9)) := by decide

/-- Section 2.5, rows (200, 3) and (255, 255). -/
theorem test_mul :
    after (step (startAB 200 3 162)) (·.reg 0) = some 88 ∧ after (step (startAB 255 255 162)) (·.reg 0) = some 1 := by
  decide

/-- Section 2.5, rows (250, 7) and (9, 0). -/
theorem test_mod :
    after (step (startAB 250 7 164)) (·.reg 0) = some 5 ∧
    after (step (startAB 9 0 164)) (fun t => (t.reg 0, t.fault)) = some (9, some (.divisionByZero 0)) := by decide

/-- A8: the index check comes before the divisor check. -/
theorem test_mod_bad_index :
    after (step (start 30 [164, 8, 3])) (·.fault) = some (some (.outOfBoundsAccess 8)) := by decide

/-- A12, A14. -/
theorem test_cmp :
    after (step (start 0 [167, 0, 1])) (fun t => (t.fl, t.pc)) = some (⟨false, true, false⟩, 3) ∧
    after (step ((start 0 [167, 2, 2]).setFlags ⟨false, true, false⟩)) (·.fl) = some ⟨true, false, false⟩ := by decide

/-- A15, A16: unsigned. -/
theorem test_cmp_unsigned :
    after (step (startAB 200 100 167)) (·.fl) = some ⟨false, false, true⟩ ∧
    after (step (startAB 0 255 167)) (·.fl) = some ⟨false, true, false⟩ := by decide

/-- Section 2.5, row (250, 7). -/
theorem test_and_or_xor :
    after (step (startAB 250 7 168)) (·.reg 0) = some 2 ∧ after (step (startAB 250 7 170)) (·.reg 0) = some 255 ∧
    after (step (startAB 250 7 171)) (·.reg 0) = some 253 := by decide

/-- Section 2.5, rows (1, 8), (129, 9), (255, 255). -/
theorem test_shl :
    after (step (startAB 1 8 172)) (·.reg 0) = some 1 ∧ after (step (startAB 129 9 172)) (·.reg 0) = some 2 ∧
    after (step (startAB 255 255 172)) (·.reg 0) = some 128 := by decide

/-- Section 2.5, rows (1, 8), (129, 9), (200, 3). -/
theorem test_shr :
    after (step (startAB 1 8 173)) (·.reg 0) = some 1 ∧ after (step (startAB 129 9 173)) (·.reg 0) = some 64 ∧
    after (step (startAB 200 3 173)) (·.reg 0) = some 25 := by decide

/-- E3, E8. -/
theorem test_engine_errors :
    after (step (start 3 [87, 0])) (fun t => (t.pc, t.fault)) = some (3, some (.unsupportedOpcode 87 3)) ∧
    after (step (start 256 [])) (fun t => (t.pc, t.fault)) = some (256, some (.outOfBoundsAccess 256)) := by decide

/-- The placed instruction is the one the next step runs, after reset and elsewhere: LDI R2,40. -/
theorem test_withFetchWord :
    after (step (State.reset.withFetchWord 24 (130 + 256 * 2 + 65536 * 40))) (fun t => (t.reg 2, t.pc)) =
      some (40, 3) ∧
    after (step ((start 253 []).withFetchWord 24 (130 + 256 * 2 + 65536 * 40))) (fun t => (t.reg 2, t.pc)) =
      some (40, 256) := by decide

/-! ### The host interface -/

/-- Section 2.2, text rendering (R83): `OUT = [8, 120, 0, 250]`. -/
theorem test_renderOut : String.ofList (renderOut [8, 120, 0, 250]) = "8\n120\n0\n250\n" := by decide

theorem test_faultCode : faultCode none = 0 ∧ faultCode (some (.unsupportedOpcode 87 3)) = 1 ∧
    faultCode (some .stackOverflow) = 5 := by decide

theorem test_status :
    status State.reset = .running ∧ after (step (start 0 [1])) status = some .halted ∧
    after (step (start 0 [17])) status = some (.faulted .stackUnderflow) := by decide

theorem test_trace : (trace (start 3 [71, 0])).opcode = some 71 ∧ (trace (start 256 [])).opcode = none := by decide

/-- R148: the document's first example, loaded. -/
theorem test_boot : after (boot [130, 0, 8, 71, 0]) (fun s => (s.memRead 0, s.memRead 3, s.memRead 5, s.pc)) =
    some (130, 71, 0, 0) := by decide

/-! ### Witnesses: a state and operands that meet the hypotheses of each statement, clause by clause, at the boundaries -/

/-- A state that has executed `i`, to show that an instruction answers a next state. -/
def ran (i : Instr) (s : State) : State := (after (exec i s) id).getD s

/-- Memory in `start` is canonical. -/
theorem start_wf : (start 253 [80, 1]).mem.wf ∧ (start 6 [80, 1]).mem.wf := by decide

theorem witness_DecodedInstructionEncodesToTheFetchedBytes : decode 160 2 255 = .ok (.add 2 255) := rfl

/-- The least and the greatest supported byte, their unsupported neighbours, 87 and 255, and such a byte fetched. -/
theorem witness_ExactlyTheTableOpcodesAreSupported :
    (0#8).toNat ∈ supportedOpcodes ∧ (173#8).toNat ∈ supportedOpcodes ∧ (2#8).toNat ∉ supportedOpcodes ∧
    (174#8).toNat ∉ supportedOpcodes ∧ (87#8).toNat ∉ supportedOpcodes ∧ (255#8).toNat ∉ supportedOpcodes ∧
    (start 255 [87]).Running ∧ (start 255 [87]).pc.toNat ≤ 255 ∧
    ((start 255 [87]).memRead ((start 255 [87]).pc.setWidth 8)).toNat ∉ supportedOpcodes := by decide

theorem witness_UnusedOperandBytesAreIgnored :
    (17#8).toNat / 64 = 0 ∧ (69#8).toNat / 64 = 1 ∧ decode 17 0 0 = .ok .ret ∧
    decode 69 255 0 = .ok (.push 255) := ⟨by decide, by decide, rfl, rfl⟩

theorem witness_StepRunsTheDecodedInstruction :
    (start 255 [0]).Running ∧ (start 255 [0]).pc.toNat ≤ 255 ∧
    decode ((start 255 [0]).memRead ((start 255 [0]).pc.setWidth 8)) (fetchOperand (start 255 [0]) 256)
      (fetchOperand (start 255 [0]) 257) = .ok .nop := ⟨by decide, by decide, rfl⟩

/-- The last address a 3-byte instruction fits at. -/
theorem witness_StoredInstructionIsTheOneThatRuns :
    (start 253 []).Running ∧ (start 253 []).mem.wf ∧ (start 253 []).pc.toNat + (Instr.add 0 1).width ≤ 256 := by decide

theorem witness_StepsAreTakenExactlyWhileRunning : boot [] = .next State.reset := rfl

theorem witness_OpcodeFetchAbove255Raises : (start 256 []).Running ∧ 255 < (start 256 []).pc.toNat := by decide

theorem witness_OperandsAbove255ReadAsZero :
    (start 255 [130]).Running ∧ (start 255 [130]).pc = 255#9 ∧
    decode ((start 255 [130]).memRead 255) 0 0 = .ok (.ldi 0 0) ∧
    (start 254 [160, 1]).Running ∧ (start 254 [160, 1]).pc = 254#9 ∧
    decode ((start 254 [160, 1]).memRead 254) ((start 254 [160, 1]).memRead 255) 0 = .ok (.add 1 0) :=
  ⟨by decide, by decide, rfl, by decide, by decide, rfl⟩

/-- A step that completes and one that faults. -/
theorem witness_ProgramCounterAdvancesOrRedirects :
    step (start 255 [0]) = .next ((start 255 [0]).advance 1) ∧ ((start 255 [0]).advance 1).fault = none ∧
    step (start 0 [17]) = .next ((start 0 [17]).latch .stackUnderflow) ∧
    ((start 0 [17]).latch .stackUnderflow).fault ≠ none := ⟨rfl, by decide, rfl, by decide⟩

theorem witness_InvariantIsKeptByEveryStep :
    State.reset.Inv ∧ step State.reset = .next (State.reset.advance 1) :=
  ⟨⟨by decide, by decide, by decide, by decide, by simp [State.reset]⟩, rfl⟩

/-- The longest program that is loaded and the shortest that is refused. -/
theorem witness_LoaderWritesTheProgramFromAddressZero :
    (List.replicate 256 (1 : Byte)).length ≤ 256 ∧ 256 < (List.replicate 257 (1 : Byte)).length :=
  ⟨List.length_replicate.le, by rw [List.length_replicate]; decide⟩

theorem witness_ErrorsArePrecise :
    step (start 0 [17]) = .next ((start 0 [17]).latch .stackUnderflow) ∧
    ((start 0 [17]).latch .stackUnderflow).fault = some .stackUnderflow := ⟨rfl, rfl⟩

theorem witness_RegisterBytesAreCheckedWholeAndFirst :
    registerBytes (.ldi 8 0) = [8] ∧ 8 ≤ (8#8).toNat ∧ registerBytes (.add 7 8) = [7, 8] ∧ (7#8).toNat ≤ 7 := by decide

theorem witness_InstructionsRaiseOnlyTheirOwnErrors :
    (start 255 [80]).fault = none ∧ (start 255 [80]).pc.toNat ≤ 255 ∧
    exec (.call 0) (start 255 [80]) = .next ((start 255 [80]).latch (.outOfBoundsAccess 257)) ∧
    ((start 255 [80]).latch (.outOfBoundsAccess 257)).fault = some (.outOfBoundsAccess 257) :=
  ⟨rfl, by decide, rfl, rfl⟩

theorem witness_FlagsAreWrittenOnlyByCompare :
    exec (.cmp 0 7) (start 0 []) = .next (ran (.cmp 0 7) (start 0 [])) ∧
    (ran (.cmp 0 7) (start 0 [])).fl ≠ (start 0 []).fl ∧ (0#8).toNat ≤ 7 ∧ (7#8).toNat ≤ 7 ∧
    (∀ ra rb, Instr.jeq 0 ≠ .cmp ra rb) ∧ (∀ ra rb, Instr.nop ≠ .cmp ra rb) ∧
    (∀ r, Instr.nop ≠ .jeq r ∧ Instr.nop ≠ .jne r) :=
  ⟨rfl, by decide, by decide, by decide, by simp, by simp, by simp⟩

theorem witness_LessAndGreaterInfluenceNothingElse :
    Host.Core.run core 1 State.reset = .next (State.reset.advance 1) := rfl

theorem witness_RunIsClearedOnlyByHalt :
    exec .hlt State.reset = .next (State.reset.halt.advance 1) ∧ (State.reset.halt.advance 1).run ≠ State.reset.run ∧
    State.reset.halt.run = false := ⟨rfl, by decide, rfl⟩

theorem witness_OutputIsAppendedByPrintAndNeverRead :
    (7#8).toNat = (7 : RegId).val ∧ exec (.prn 7) (start 0 []) = .next (ran (.prn 7) (start 0 [])) ∧
    (ran (.prn 7) (start 0 [])).out ≠ (start 0 []).out := ⟨rfl, rfl, by decide⟩

/-- All three outcomes: `sp` down, up, and unchanged at either end. -/
theorem witness_StackPointerMovesByOneWithoutWrapping :
    exec (.push 0) (start 0 []) = .next (ran (.push 0) (start 0 [])) ∧
    exec .ret ((start 0 []).setSp 0) = .next (ran .ret ((start 0 []).setSp 0)) ∧
    exec .ret (start 0 []) = .next ((start 0 []).latch .stackUnderflow) ∧
    exec (.push 0) ((start 0 []).setSp 0) = .next (((start 0 []).setSp 0).latch .stackOverflow) :=
  ⟨rfl, rfl, rfl, rfl⟩

theorem witness_MemoryChangesOnlyAtThePushedByte :
    (start 0 []).mem.wf ∧ exec (.push 0) (start 0 []) = .next (ran (.push 0) (start 0 [])) ∧
    (ran (.push 0) (start 0 [])).memRead 254 ≠ (start 0 []).memRead 254 := ⟨by decide, rfl, by decide⟩

theorem witness_RegistersChangeOnlyAtTheDestination :
    exec (.ldi 7 1) (start 0 []) = .next (ran (.ldi 7 1) (start 0 [])) ∧
    (ran (.ldi 7 1) (start 0 [])).reg 7 ≠ (start 0 []).reg 7 := ⟨rfl, by decide⟩

theorem witness_UnnamedRegistersHaveNoInfluence :
    ∀ b ∈ registerBytes (.add 0 7), b.toNat ≠ (3 : RegId).val := by decide

theorem witness_AluTouchesOnlyTheRegisterFile :
    isAlu (.shr 0 1) = true ∧ exec (.shr 0 1) (start 0 []) = .next (ran (.shr 0 1) (start 0 [])) ∧
    (ran (.shr 0 1) (start 0 [])).reg 0 ≠ (start 0 []).reg 0 := ⟨rfl, rfl, by decide⟩

/-- The least and the greatest register byte, and the least bad one: the hypotheses of PRN, LDI, JMP, JEQ, JNE, NOT. -/
theorem witness_register_bytes :
    (0#8).toNat = (0 : RegId).val ∧ (7#8).toNat = (7 : RegId).val ∧ 7 < (8#8).toNat ∧ 7 < (255#8).toNat := by decide

theorem witness_PrnAppendsTheRegister : (7#8).toNat = (7 : RegId).val := rfl
theorem witness_LdiLoadsTheImmediate : (7#8).toNat = (7 : RegId).val ∧ 7 < (8#8).toNat := by decide
theorem witness_JmpGoesToTheRegister : (7#8).toNat = (7 : RegId).val ∧ 7 < (8#8).toNat := by decide
theorem witness_JeqFollowsTheEqualFlag : (7#8).toNat = (7 : RegId).val ∧ 7 < (8#8).toNat := by decide
theorem witness_JneFollowsTheEqualFlag : (7#8).toNat = (7 : RegId).val ∧ 7 < (8#8).toNat := by decide
theorem witness_NotInvertsEveryBit : (7#8).toNat = (7 : RegId).val ∧ 7 < (8#8).toNat := by decide

/-- `sp = 1`, the last push that succeeds, and `sp = 0`. -/
theorem witness_PushStoresBelowTheStackPointer :
    (0#8).toNat = (0 : RegId).val ∧ ((start 0 []).setSp 1).mem.wf ∧ ((start 0 []).setSp 1).sp ≠ 0#8 ∧
    ((start 0 []).setSp 0).sp = 0#8 := by decide

/-- `sp = 254`, the last pop that succeeds, and `sp = 255`. -/
theorem witness_PopLoadsAtTheStackPointer :
    (3#8).toNat = (3 : RegId).val ∧ ((start 0 []).setSp 254).sp ≠ 255#8 ∧ (start 0 []).sp = 255#8 := by decide

theorem witness_PushThenPopMovesTheValue :
    (0#8).toNat = (0 : RegId).val ∧ (7#8).toNat = (7 : RegId).val ∧ (start 0 []).mem.wf ∧ (start 0 []).sp ≠ 0#8 := by
  decide

/-- `pc` 253, 254 and 255, and `sp = 0` at 253. -/
theorem witness_CallPushesTheReturnAddress :
    (1#8).toNat = (1 : RegId).val ∧ (start 253 [80, 1]).mem.wf ∧ (start 253 [80, 1]).pc.toNat ≤ 253 ∧
    (start 253 [80, 1]).sp ≠ 0#8 ∧ (start 254 [80, 1]).pc = 254#9 ∧ (start 255 [80]).pc = 255#9 ∧
    ((start 253 [80, 1]).setSp 0).sp = 0#8 := by decide

theorem witness_RetPopsTheTarget : ((start 14 [17]).setSp 254).sp ≠ 255#8 ∧ (start 14 [17]).sp = 255#8 := by decide

/-- A state reached from the CALL with the same `sp` and the same byte there: the one right after it. -/
theorem witness_ReturnResumesAfterTheCall :
    (1#8).toNat = (1 : RegId).val ∧ (start 253 [80, 1]).mem.wf ∧ (start 253 [80, 1]).pc.toNat ≤ 253 ∧
    (start 253 [80, 1]).sp ≠ 0#8 ∧ (ran (.call 1) (start 253 [80, 1])).sp = 254 ∧
    (ran (.call 1) (start 253 [80, 1])).memRead 254 = 255 := by decide

/-- Two different registers, one register twice, and a bad byte in either place. -/
theorem witness_two_register_bytes :
    (0#8).toNat = (0 : RegId).val ∧ (7#8).toNat = (7 : RegId).val ∧ (7 < (8#8).toNat ∨ 7 < (0#8).toNat) ∧
    (7 < (7#8).toNat ∨ 7 < (8#8).toNat) := by decide

theorem witness_AddIsTheSumModulo256 :
    (0#8).toNat = (0 : RegId).val ∧ (7#8).toNat = (7 : RegId).val ∧ (7 < (7#8).toNat ∨ 7 < (8#8).toNat) := by decide
theorem witness_MulIsTheProductModulo256 :
    (0#8).toNat = (0 : RegId).val ∧ (7#8).toNat = (7 : RegId).val ∧ (7 < (8#8).toNat ∨ 7 < (0#8).toNat) := by decide

/-- A divisor of 9 and one of 0. -/
theorem witness_ModIsTheRemainderOrDivisionByZero :
    (0#8).toNat = (0 : RegId).val ∧ (7#8).toNat = (7 : RegId).val ∧ (start 0 []).reg 7 ≠ 0#8 ∧
    (3#8).toNat = (3 : RegId).val ∧ (start 0 []).reg 3 = 0#8 := by decide

theorem witness_CmpSetsAllThreeFlags : (0#8).toNat = (0 : RegId).val ∧ (7#8).toNat = (7 : RegId).val := by decide
theorem witness_BitwiseInstructionsWorkBitByBit :
    (0#8).toNat = (0 : RegId).val ∧ (7#8).toNat = (7 : RegId).val ∧ (7 < (7#8).toNat ∨ 7 < (8#8).toNat) := by decide
theorem witness_ShlShiftsLeftModulo8 : (0#8).toNat = (0 : RegId).val ∧ (7#8).toNat = (7 : RegId).val := by decide
theorem witness_ShrShiftsRightLogicallyModulo8 : (0#8).toNat = (0 : RegId).val ∧ (7#8).toNat = (7 : RegId).val := by
  decide
theorem witness_CompareAfterAddDetectsTheCarry :
    (0#8).toNat = (0 : RegId).val ∧ (7#8).toNat = (7 : RegId).val ∧ (0 : RegId) ≠ 7 := by decide

/-- As at the end of program P6: PUSH at 6 with `sp = 9` writes address 8, where the next instruction is; the byte pushed
is HLT's. -/
theorem witness_APushedByteIsExecutedNext :
    (0#8).toNat = (0 : RegId).val ∧ (((start 6 [69, 0, 84, 1]).setSp 9).setReg 0 1).Running ∧
    (((start 6 [69, 0, 84, 1]).setSp 9).setReg 0 1).mem.wf ∧
    (((start 6 [69, 0, 84, 1]).setSp 9).setReg 0 1).sp ≠ 0#8 ∧
    (((start 6 [69, 0, 84, 1]).setSp 9).setReg 0 1).pc.toNat + 2 =
      (((start 6 [69, 0, 84, 1]).setSp 9).setReg 0 1).sp.toNat - 1 ∧
    decode ((((start 6 [69, 0, 84, 1]).setSp 9).setReg 0 1).reg 0)
      (fetchOperand (((start 6 [69, 0, 84, 1]).setSp 9).setReg 0 1) 9)
      (fetchOperand (((start 6 [69, 0, 84, 1]).setSp 9).setReg 0 1) 10) = .ok .hlt :=
  ⟨by decide, by decide, by decide, by decide, by decide, rfl⟩

/-- As in program P11. -/
theorem witness_AJumpToItselfNeverEnds :
    (3#8).toNat = (3 : RegId).val ∧ (start 0 [84, 3]).Running ∧ (start 0 [84, 3]).pc.toNat ≤ 255 ∧
    decodeAt (start 0 [84, 3]) = .ok (.jmp 3) ∧ ((start 0 [84, 3]).reg 3).setWidth 9 = (start 0 [84, 3]).pc :=
  ⟨by decide, by decide, by decide, rfl, by decide⟩

/-- As in program P10, and at the top itself. -/
theorem witness_ZeroMemoryRunsOffTheTop :
    State.reset.Running ∧ State.reset.pc.toNat ≤ 256 ∧
    (∀ a : Addr, State.reset.pc.toNat ≤ a.toNat → State.reset.memRead a = 0#8) ∧
    (start 256 []).Running ∧ (start 256 []).pc.toNat ≤ 256 :=
  ⟨by decide, by decide, fun _ _ => rfl, by decide, by decide⟩

end Sys2Proof.Tests
end

section
/-! PROOF. What an instruction leaves as it was and what it never reads, once for all 21 instructions, and the four
statements of spec/10_state.md that follow: `pc` (R15), the flags (R19), `RUN` (R21) and `OUT` (R23). -/

namespace Sys2Proof.Machine

/-! ### What an instruction that completes leaves behind -/

/-- Where `pc` goes when the instruction completes: the redirect's target, else past the instruction (R15, R73). -/
def nextPc (i : Instr) (s : State) : PcWord :=
  (redirectTarget i s).elim (s.pc + BitVec.ofNat 9 i.width) (·.setWidth 9)

theorem nextPc_of_redirect {i : Instr} {s : State} {target : Byte} (h : redirectTarget i s = some target) :
    nextPc i s = target.setWidth 9 := by
  simp [nextPc, h]

theorem advance_pc_eq_nextPc {i : Instr} {s u : State} {n : Nat} (h : redirectTarget i s = none)
    (hn : i.operands.length + 1 = n) (hpc : u.pc = s.pc) : (u.advance n).pc = nextPc i s := by
  simp [nextPc, h, i.width_eq, hn, hpc]

/-- From an address within memory an advance never wraps and ends at 258 at most (R14). -/
theorem nextPc_of_advance {i : Instr} {s : State} (h : redirectTarget i s = none) (hpc : s.pc.toNat ≤ 255) :
    (nextPc i s).toNat = s.pc.toNat + i.width := by
  have hw := i.width_le
  simp only [nextPc, h, Option.elim_none, BitVec.toNat_add, BitVec.toNat_ofNat]
  omega

/-- `t` is what `i` leaves of `s` when it raises no error, in the fields that few instructions write: `RUN` is HLT's, the
flags are CMP's and `OUT` is PRN's. -/
structure Completes (i : Instr) (s t : State) : Prop where
  pc : t.pc = nextPc i s
  fault : t.fault = s.fault
  run : t.run = s.run ∨ (i = .hlt ∧ t.run = false)
  fl : t.fl = s.fl ∨ ∃ ra rb, i = .cmp ra rb
  out : t.out = s.out ∨ ∃ r, i = .prn r

/-- An instruction that writes registers, `sp` and memory only, then advances by its length. -/
theorem Completes.of_advance {i : Instr} {s u : State} {n : Nat} (ht : redirectTarget i s = none)
    (hn : i.operands.length + 1 = n) (hpc : u.pc = s.pc) (hfault : u.fault = s.fault) (hrun : u.run = s.run)
    (hfl : u.fl = s.fl) (hout : u.out = s.out) : Completes i s (u.advance n) :=
  ⟨advance_pc_eq_nextPc ht hn hpc, hfault, .inl hrun, .inl hfl, .inl hout⟩

/-- An instruction that writes registers, `sp` and memory only, then redirects. -/
theorem Completes.of_redirect {i : Instr} {s u : State} {target : Byte} (ht : redirectTarget i s = some target)
    (hfault : u.fault = s.fault) (hrun : u.run = s.run) (hfl : u.fl = s.fl) (hout : u.out = s.out) :
    Completes i s (u.redirect target) :=
  ⟨(nextPc_of_redirect ht).symm, hfault, .inl hrun, .inl hfl, .inl hout⟩

/-- Every next state of an instruction is that of an error, which latches a record and changes nothing else (R126), or
that of its completion. -/
theorem latch_or_completes_of_exec {i : Instr} {s t : State} (h : exec i s = .next t) :
    (∃ e, t = s.latch e) ∨ Completes i s t := by
  cases i with
  | nop =>
    obtain rfl := exec_nop_iff.mp h
    exact .inr (.of_advance rfl rfl rfl rfl rfl rfl rfl)
  | hlt =>
    obtain rfl := exec_hlt_iff.mp h
    exact .inr ⟨advance_pc_eq_nextPc rfl rfl rfl, rfl, .inr ⟨rfl, rfl⟩, .inl rfl, .inl rfl⟩
  | ret =>
    obtain ⟨-, rfl⟩ | ⟨-, rfl⟩ := exec_ret_iff.mp h
    · exact .inr (.of_redirect rfl rfl rfl rfl rfl)
    · exact .inl ⟨_, rfl⟩
  | push r =>
    obtain ⟨_, -, ⟨-, rfl⟩ | ⟨-, rfl⟩⟩ | ⟨-, rfl⟩ := exec_push_iff.mp h
    · exact .inr (.of_advance rfl rfl rfl rfl rfl rfl rfl)
    · exact .inl ⟨_, rfl⟩
    · exact .inl ⟨_, rfl⟩
  | pop r =>
    obtain ⟨_, -, ⟨-, rfl⟩ | ⟨-, rfl⟩⟩ | ⟨-, rfl⟩ := exec_pop_iff.mp h
    · exact .inr (.of_advance rfl rfl rfl rfl rfl rfl rfl)
    · exact .inl ⟨_, rfl⟩
    · exact .inl ⟨_, rfl⟩
  | prn r =>
    obtain ⟨_, -, rfl⟩ | ⟨-, rfl⟩ := exec_prn_iff.mp h
    · exact .inr ⟨advance_pc_eq_nextPc rfl rfl rfl, rfl, .inl rfl, .inl rfl, .inr ⟨r, rfl⟩⟩
    · exact .inl ⟨_, rfl⟩
  | call r =>
    obtain ⟨_, hr, ⟨-, rfl⟩ | ⟨-, -, rfl⟩ | ⟨-, -, rfl⟩⟩ | ⟨-, rfl⟩ := exec_call_iff.mp h
    · exact .inl ⟨_, rfl⟩
    · exact .inr (.of_redirect (by simp [redirectTarget, regIndex_of_toNat hr]) rfl rfl rfl rfl)
    · exact .inl ⟨_, rfl⟩
    · exact .inl ⟨_, rfl⟩
  | jmp r =>
    obtain ⟨_, hr, rfl⟩ | ⟨-, rfl⟩ := exec_jmp_iff.mp h
    · exact .inr (.of_redirect (by simp [redirectTarget, regIndex_of_toNat hr]) rfl rfl rfl rfl)
    · exact .inl ⟨_, rfl⟩
  | jeq r =>
    obtain ⟨_, hr, rfl⟩ | ⟨-, rfl⟩ := exec_jeq_iff.mp h
    · split
      next he => exact .inr (.of_redirect (by simp [redirectTarget, he, regIndex_of_toNat hr]) rfl rfl rfl rfl)
      next he => exact .inr (.of_advance (by simp [redirectTarget, he]) rfl rfl rfl rfl rfl rfl)
    · exact .inl ⟨_, rfl⟩
  | jne r =>
    obtain ⟨_, hr, rfl⟩ | ⟨-, rfl⟩ := exec_jne_iff.mp h
    · split
      next he => exact .inr (.of_advance (by simp [redirectTarget, he]) rfl rfl rfl rfl rfl rfl)
      next he => exact .inr (.of_redirect (by simp [redirectTarget, he, regIndex_of_toNat hr]) rfl rfl rfl rfl)
    · exact .inl ⟨_, rfl⟩
  | not r =>
    obtain ⟨_, -, rfl⟩ | ⟨-, rfl⟩ := exec_not_iff.mp h
    · exact .inr (.of_advance rfl rfl rfl rfl rfl rfl rfl)
    · exact .inl ⟨_, rfl⟩
  | ldi r imm =>
    obtain ⟨_, -, rfl⟩ | ⟨-, rfl⟩ := exec_ldi_iff.mp h
    · exact .inr (.of_advance rfl rfl rfl rfl rfl rfl rfl)
    · exact .inl ⟨_, rfl⟩
  | mod ra rb =>
    obtain ⟨_, _, -, -, ⟨-, rfl⟩ | ⟨-, rfl⟩⟩ | ⟨-, -, rfl⟩ | ⟨-, rfl⟩ := exec_mod_iff.mp h
    · exact .inl ⟨_, rfl⟩
    · exact .inr (.of_advance rfl rfl rfl rfl rfl rfl rfl)
    · exact .inl ⟨_, rfl⟩
    · exact .inl ⟨_, rfl⟩
  | cmp ra rb =>
    obtain ⟨_, _, -, -, rfl⟩ | ⟨-, -, rfl⟩ | ⟨-, rfl⟩ := exec_cmp_iff.mp h
    · exact .inr ⟨advance_pc_eq_nextPc rfl rfl rfl, rfl, .inl rfl, .inr ⟨ra, rb, rfl⟩, .inl rfl⟩
    · exact .inl ⟨_, rfl⟩
    · exact .inl ⟨_, rfl⟩
  | add ra rb | mul ra rb | and ra rb | or ra rb | xor ra rb | shl ra rb | shr ra rb =>
    obtain ⟨_, _, -, -, rfl⟩ | ⟨-, -, rfl⟩ | ⟨-, rfl⟩ := (exec_alu_iff rfl rfl).mp h
    · exact .inr (.of_advance rfl rfl rfl rfl rfl rfl rfl)
    · exact .inl ⟨_, rfl⟩
    · exact .inl ⟨_, rfl⟩

/-- Every next state of a step is that of an error, or that of the completion of the instruction at `pc`. -/
theorem latch_or_completes_of_step {s t : State} (h : step s = .next t) :
    (∃ e, t = s.latch e) ∨ (s.fault = none ∧ s.pc.toNat ≤ 255 ∧ ∃ i, decodeAt s = .ok i ∧ Completes i s t) := by
  obtain ⟨⟨-, hf⟩, ⟨-, rfl⟩ | ⟨-, -, rfl⟩ | ⟨hpc, i, hd, he⟩⟩ := step_eq_next.mp h
  · exact .inl ⟨_, rfl⟩
  · exact .inl ⟨_, rfl⟩
  · exact (latch_or_completes_of_exec he).imp id fun hc => ⟨hf, hpc, i, hd, hc⟩

/-! ### What an instruction never reads -/

/-- `f` changes nothing that instructions read but, perhaps, the flags, and goes through every write but, perhaps, CMP's
of the flags. -/
structure Transparent (f : State → State) : Prop where
  reg : ∀ s i, (f s).reg i = s.reg i
  pc : ∀ s, (f s).pc = s.pc
  sp : ∀ s, (f s).sp = s.sp
  mem : ∀ s, (f s).mem = s.mem
  setReg : ∀ s i v, f (s.setReg i v) = (f s).setReg i v
  advance : ∀ s n, f (s.advance n) = (f s).advance n
  redirect : ∀ s v, f (s.redirect v) = (f s).redirect v
  setSp : ∀ s v, f (s.setSp v) = (f s).setSp v
  memWrite : ∀ s a v, f (s.memWrite a v) = (f s).memWrite a v
  halt : ∀ s, f s.halt = (f s).halt
  emit : ∀ s v, f (s.emit v) = (f s).emit v
  latch : ∀ s e, f (s.latch e) = (f s).latch e

section Transparent

variable {f : State → State} (hf : Transparent f)
include hf

theorem Transparent.memRead (s : State) (a : Addr) : (f s).memRead a = s.memRead a := by
  rw [State.memRead, hf.mem, State.memRead]

theorem Transparent.decodeAt (s : State) : decodeAt (f s) = decodeAt s := by
  simp only [Machine.decodeAt, fetchOpcode, fetchOperand, hf.pc, hf.memRead]

/-- The seven instructions of the common ALU shape. -/
theorem Transparent.mapNext_exec_alu {i : Instr} {g : Byte → Byte → Byte} {ra rb : Byte} (hg : aluFunction i = some g)
    (hr : registerBytes i = [ra, rb]) (s : State) : mapNext f (exec i s) = exec i (f s) := by
  rw [exec_eq_aluBinary hg hr, exec_eq_aluBinary hg hr]
  exact mapNext_withRegs (hf.latch s) fun i j _ _ => by rw [mapNext_next, hf.advance, hf.setReg, hf.reg, hf.reg]

/-- A transparent change of the state goes through an instruction: CMP needs that it also goes through a write of the
flags, a branch that it keeps `FL.E`. -/
theorem Transparent.mapNext_exec {i : Instr} {s : State}
    (hcmp : (∃ ra rb, i = .cmp ra rb) → ∀ fl, f (s.setFlags fl) = (f s).setFlags fl)
    (hbranch : (∃ r, i = .jeq r ∨ i = .jne r) → (f s).fl.e = s.fl.e) :
    mapNext f (exec i s) = exec i (f s) := by
  have hl := hf.latch s
  cases i with
  | nop => exact congrArg _ (hf.advance s 1)
  | hlt => exact congrArg _ ((hf.advance _ 1).trans (by rw [hf.halt]))
  | ret =>
    simp only [exec, execRet]
    refine mapNext_pop hl (hf.sp s) ?_
    rw [mapNext_next, hf.redirect, hf.setSp, hf.memRead]
  | push r =>
    refine mapNext_withReg hl fun i _ => ?_
    rw [hf.reg]
    exact mapNext_push hl (hf.sp s) (by rw [mapNext_next, hf.advance, hf.memWrite, hf.setSp])
  | pop r =>
    refine mapNext_withReg hl fun i _ => mapNext_pop hl (hf.sp s) ?_
    rw [mapNext_next, hf.advance, hf.setReg, hf.setSp, hf.memRead]
  | prn r =>
    exact mapNext_withReg hl fun i _ => by rw [mapNext_next, hf.advance, hf.emit, hf.reg]
  | call r =>
    refine mapNext_withReg hl fun i _ => ?_
    rw [hf.pc, hf.reg]
    split
    · exact mapNext_raise hl _
    · exact mapNext_push hl (hf.sp s) (by rw [mapNext_next, hf.redirect, hf.memWrite, hf.setSp])
  | jmp r =>
    exact mapNext_withReg hl fun i _ => by rw [mapNext_next, hf.redirect, hf.reg]
  | jeq r =>
    refine mapNext_withReg hl fun i _ => ?_
    rw [mapNext_next, hbranch ⟨r, .inl rfl⟩, hf.reg, apply_ite f, hf.redirect, hf.advance]
  | jne r =>
    refine mapNext_withReg hl fun i _ => ?_
    rw [mapNext_next, hbranch ⟨r, .inr rfl⟩, hf.reg, apply_ite f, hf.redirect, hf.advance]
  | not r =>
    exact mapNext_withReg hl fun i _ => by rw [mapNext_next, hf.advance, hf.setReg, hf.reg]
  | ldi r imm =>
    exact mapNext_withReg hl fun i _ => by rw [mapNext_next, hf.advance, hf.setReg]
  | mod ra rb =>
    refine mapNext_withRegs hl fun i j _ _ => ?_
    rw [hf.reg, hf.reg, hf.pc]
    split
    · exact mapNext_raise hl _
    · rw [mapNext_next, hf.advance, hf.setReg]
  | cmp ra rb =>
    refine mapNext_withRegs hl fun i j _ _ => ?_
    rw [mapNext_next, hf.advance, hcmp ⟨ra, rb, rfl⟩, hf.reg, hf.reg]
  | add ra rb | mul ra rb | and ra rb | or ra rb | xor ra rb | shl ra rb | shr ra rb =>
    exact hf.mapNext_exec_alu rfl rfl s

/-- A transparent change that keeps `RUN` and `FAULT` goes through a step where it goes through every instruction. -/
theorem Transparent.mapNext_step {s : State} (hrun : (f s).run = s.run) (hfault : (f s).fault = s.fault)
    (hexec : ∀ i, mapNext f (exec i s) = exec i (f s)) : mapNext f (step s) = step (f s) := by
  unfold step engineStep runningStep
  rw [hrun, hfault, hf.pc, hf.decodeAt]
  split
  · rfl
  · rfl
  · split
    · exact mapNext_raise (hf.latch s) _
    · split
      · exact hexec _
      · simp only [fetchOpcode, hf.pc, hf.memRead]
        exact mapNext_raise (hf.latch s) _

end Transparent

/-- `FL.L` and `FL.G` set, `FL.E` kept. -/
def State.setLessGreater (l g : Bool) (s : State) : State := { s with fl := ⟨s.fl.e, l, g⟩ }

/-- Values put before `OUT`. -/
def State.prependOut (o : List Byte) (s : State) : State := { s with out := o ++ s.out }

theorem transparent_setFlags (fl : Flags) : Transparent (·.setFlags fl) := by
  constructor <;> intros <;> rfl

theorem transparent_setLessGreater (l g : Bool) : Transparent (State.setLessGreater l g) := by
  constructor <;> intros <;> rfl

theorem transparent_prependOut (o : List Byte) : Transparent (State.prependOut o) where
  emit s v := by simp [State.prependOut, State.emit]
  reg _ _ := rfl
  pc _ := rfl
  sp _ := rfl
  mem _ := rfl
  setReg _ _ _ := rfl
  advance _ _ := rfl
  redirect _ _ := rfl
  setSp _ _ := rfl
  memWrite _ _ _ := rfl
  halt _ := rfl
  latch _ _ := rfl

/-- CMP of two registers sets the flags and advances, whatever the flags were. -/
theorem exec_cmp_of_le {ra rb : Byte} (ha : ra.toNat ≤ 7) (hb : rb.toNat ≤ 7) :
    ∃ i j : RegId, ∀ s, exec (.cmp ra rb) s = .next ((s.setFlags (compareFlags (s.reg i) (s.reg j))).advance 3) :=
  ⟨⟨ra.toNat, by omega⟩, ⟨rb.toNat, by omega⟩, fun s => exec_cmp_iff.mpr (.inl ⟨_, _, rfl, rfl, rfl⟩)⟩

/-! ### The statements -/

/-- Settles O11: a step either latches a record, which leaves `pc`, or completes, which sets it to `nextPc`. -/
theorem programCounterAdvancesOrRedirects : Obligations.ProgramCounterAdvancesOrRedirects := by
  intro s t h
  obtain ⟨e, rfl⟩ | ⟨hf, hpc, i, hd, hc⟩ := latch_or_completes_of_step h
  · exact ⟨fun _ => rfl, fun hn => by simp at hn⟩
  · refine ⟨fun hn => absurd (hc.fault.trans hf) hn, fun _ => ⟨i, hd, ?_⟩⟩
    split
    next target ht => rw [hc.pc, nextPc_of_redirect ht]
    next ht =>
      have hadd : t.pc.toNat = s.pc.toNat + i.width := by rw [hc.pc, nextPc_of_advance ht hpc]
      have hw := i.width_le
      exact ⟨hadd, rfl, by omega⟩

/-- Settles O20: only CMP completes with other flags, and setting the flags is a transparent change. -/
theorem flagsAreWrittenOnlyByCompare : Obligations.FlagsAreWrittenOnlyByCompare := by
  refine ⟨rfl, fun i s t h hne => ?_, fun s ra rb ha hb => ?_, fun i s l g hcmp => ?_, fun i s fl hcmp hbranch => ?_,
    fun s fl ra rb ha hb => ?_⟩
  · obtain ⟨e, rfl⟩ | hc := latch_or_completes_of_exec h
    · exact absurd rfl hne
    · exact hc.fl.resolve_left hne
  · obtain ⟨i, j, h⟩ := exec_cmp_of_le ha hb
    refine ⟨_, h s, ?_⟩
    rcases compareFlags_cases (s.reg i) (s.reg j) with ⟨-, hfl⟩ | ⟨-, hfl⟩ | ⟨-, hfl⟩
    · exact .inl hfl
    · exact .inr (.inl hfl)
    · exact .inr (.inr hfl)
  · refine ((transparent_setLessGreater l g).mapNext_exec ?_ fun _ => rfl).symm
    exact fun ⟨ra, rb, hi⟩ => absurd hi (hcmp ra rb)
  · refine ((transparent_setFlags fl).mapNext_exec ?_ ?_).symm
    · exact fun ⟨ra, rb, hi⟩ => absurd hi (hcmp ra rb)
    · exact fun ⟨r, hi⟩ => hi.elim (fun h => absurd h (hbranch r).1) fun h => absurd h (hbranch r).2
  · obtain ⟨i, j, h⟩ := exec_cmp_of_le ha hb
    rw [h, h]
    rfl

/-- Settles O22: only HLT completes with another `RUN`, and a halted core takes no step. -/
theorem runIsClearedOnlyByHalt : Obligations.RunIsClearedOnlyByHalt := by
  refine ⟨rfl, fun i s t h hne => ?_, fun s t hrun => ?_⟩
  · obtain ⟨e, rfl⟩ | hc := latch_or_completes_of_exec h
    · exact absurd rfl hne
    · exact hc.run.resolve_left hne
  · simp [step_of_halted hrun]

/-- Settles O23: only PRN completes with another `OUT`, and putting values before `OUT` is a transparent change. -/
theorem outputIsAppendedByPrintAndNeverRead : Obligations.OutputIsAppendedByPrintAndNeverRead := by
  refine ⟨rfl, fun s r i hr => ?_, fun i s t h hne => ?_, fun s o => ?_⟩
  · exact ⟨_, exec_prn_iff.mpr (.inl ⟨i, hr, rfl⟩), rfl⟩
  · obtain ⟨e, rfl⟩ | hc := latch_or_completes_of_exec h
    · exact absurd rfl hne
    · exact hc.out.resolve_left hne
  · have hf := transparent_prependOut o
    exact (hf.mapNext_step rfl rfl fun i => hf.mapNext_exec (fun _ _ => rfl) fun _ => rfl).symm

end Sys2Proof.Machine
end

section
/-! PROOF. Which opcode bytes decode and which operand bytes are read, and the two statements of spec/30_encoding.md
that follow: the illegal opcodes (R57) and the ignored operand bytes (R58). -/

namespace Sys2Proof.Machine

/-! ### Which opcode bytes decode -/

theorem opcode_mem_supportedOpcodes (i : Instr) : i.opcode.toNat ∈ supportedOpcodes := by
  cases i <;> simp [Instr.opcode, supportedOpcodes]

/-- A byte that is no instruction's opcode is rejected, since what decodes carries its opcode. -/
theorem decode_of_notMem {op : Byte} (h : op.toNat ∉ supportedOpcodes) (a b : Byte) :
    decode op a b = .error (.unsupportedOpcode op) := by
  cases hd : decode op a b with
  | error e => rw [decode_error hd]
  | ok i =>
    obtain rfl := opcode_of_decode hd
    exact absurd (opcode_mem_supportedOpcodes i) h

theorem isOk_decode_zero_of_mem : ∀ n ∈ supportedOpcodes, (decode (BitVec.ofNat 8 n) 0 0).isOk = true := by decide

/-- A listed byte decodes with zero operands, and whether a byte decodes does not depend on the operands. -/
theorem decode_of_mem {op : Byte} (h : op.toNat ∈ supportedOpcodes) (a b : Byte) : ∃ i, decode op a b = .ok i := by
  cases hd : decode op a b with
  | ok i => exact ⟨i, rfl⟩
  | error e =>
    have hok := isOk_decode_zero_of_mem _ h
    rw [BitVec.ofNat_toNat, BitVec.setWidth_eq, decode_error_any hd] at hok
    cases hok

/-- The listed opcodes are distinct bytes, so 256 - 21 bytes are left over. -/
theorem length_unsupportedOpcodes : ((List.range 256).filter (fun n => n ∉ supportedOpcodes)).length = 235 := by
  have hperm : ((List.range 256).filter (· ∈ supportedOpcodes)).Perm supportedOpcodes := by
    refine (List.perm_ext_iff_of_nodup (List.nodup_range.filter _) (by decide)).mpr fun n => ?_
    have hbyte : ∀ n ∈ supportedOpcodes, n < 256 := by decide
    simpa using hbyte n
  have hlisted : ((List.range 256).filter (· ∈ supportedOpcodes)).length = 21 := hperm.length_eq
  have hsplit := List.length_eq_length_filter_add (l := List.range 256) (fun n => decide (n ∈ supportedOpcodes))
  simp only [List.length_range, hlisted, ← decide_not] at hsplit
  omega

/-- Settles O4: the bytes that decode are the opcodes of the instructions, and a step that decodes nothing latches. -/
theorem exactlyTheTableOpcodesAreSupported : Obligations.ExactlyTheTableOpcodesAreSupported := by
  refine ⟨fun op a b h => ?_, fun op a b h => decode_of_notMem h a b, length_unsupportedOpcodes, by decide,
    fun s hs hpc h => ?_⟩
  · obtain ⟨i, hd⟩ := decode_of_mem h a b
    exact ⟨i, hd, opcode_of_decode hd⟩
  · exact step_eq_next.mpr ⟨hs, .inr (.inl ⟨hpc, ⟨_, decode_of_notMem h _ _⟩, rfl⟩)⟩

/-! ### Which operand bytes are read -/

/-- The operands of what is decoded are the operand bytes of the fetch, as many as `opcode[7:6]` says (R50, R51). -/
theorem operands_of_decode {op a b : Byte} {i : Instr} (h : decode op a b = .ok i) :
    i.operands = [a, b].take (op.toNat / 64) := by
  unfold decode at h
  split at h <;> cases h <;> rfl

/-- The operand bytes beyond those the opcode counts may be any others (R58). -/
theorem decode_take_operands (op a b a' b' : Byte) :
    decode op (([a, b].take (op.toNat / 64)).getD 0 a') (([a, b].take (op.toNat / 64)).getD 1 b') = decode op a b := by
  cases hd : decode op a b with
  | error e => rw [decode_error_any hd, decode_error hd]
  | ok i => rw [← operands_of_decode hd, ← opcode_of_decode hd, decode_operands]

theorem decode_no_operands {op : Byte} (h : op.toNat / 64 = 0) (a b a' b' : Byte) :
    decode op a b = decode op a' b' := by
  simpa [h] using (decode_take_operands op a b a' b').symm

theorem decode_one_operand {op : Byte} (h : op.toNat / 64 = 1) (a b b' : Byte) : decode op a b = decode op a b' := by
  simpa [h] using (decode_take_operands op a b 0 b').symm

/-- The next instruction begins after as many bytes as the opcode counts. -/
theorem decodeBytes_cons_of_ok {op : Byte} {rest : List Byte} {i : Instr}
    (h : decode op (rest.getD 0 Config.oobOperand) (rest.getD 1 Config.oobOperand) = .ok i) :
    decodeBytes (op :: rest) = .ok (i, rest.drop (op.toNat / 64)) := by
  simp only [decodeBytes, h, widthOfOpcode, Nat.add_sub_cancel]

/-- Settles O5: the decoder reads as many operand bytes as the opcode counts, and drops that many. -/
theorem unusedOperandBytesAreIgnored : Obligations.UnusedOperandBytesAreIgnored := by
  refine ⟨fun op a b a' b' h => decode_no_operands h a b a' b', fun op a b b' h => decode_one_operand h a b b',
    fun op i rest h hd => ?_, fun op a i rest h hd => ?_⟩
  · rw [decodeBytes_cons_of_ok ((decode_no_operands h _ _ _ _).trans hd), h, List.drop_zero]
  · rw [decodeBytes_cons_of_ok ((decode_one_operand h a _ 0).trans hd), h, List.drop_one, List.tail_cons]

end Sys2Proof.Machine
end

section
/-! PROOF. Every instruction, and so every step of a running core, answers a next state; what loading can do; and the
statement of spec/40_engine_step.md that follows: when a step is taken (R70). -/

namespace Sys2Proof.Machine

/-! ### Every instruction answers a next state

An error is a next state too (R126), so each shared operation answers one where what follows it does. -/

theorem exists_withReg_eq_next {b : Byte} {s : State} {k : RegId → Result} (hk : ∀ i, ∃ t, k i = .next t) :
    ∃ t, withReg b s k = .next t := by
  rcases regIndex_cases b with ⟨i, hi, -⟩ | ⟨hb, -⟩
  · rw [withReg_of_toNat hi]
    exact hk i
  · exact ⟨_, withReg_of_ge hb s k⟩

theorem exists_withRegs_eq_next {a b : Byte} {s : State} {k : RegId → RegId → Result}
    (hk : ∀ i j, ∃ t, k i j = .next t) : ∃ t, withRegs a b s k = .next t :=
  exists_withReg_eq_next fun i => exists_withReg_eq_next fun j => hk i j

theorem exists_push_eq_next {v : Byte} {s : State} {k : State → Result} (hk : ∀ u, ∃ t, k u = .next t) :
    ∃ t, push v s k = .next t := by
  unfold push
  split
  · exact ⟨_, rfl⟩
  · exact hk _

theorem exists_pop_eq_next {s : State} {k : Byte → State → Result} (hk : ∀ v u, ∃ t, k v u = .next t) :
    ∃ t, pop s k = .next t := by
  unfold pop
  split
  · exact ⟨_, rfl⟩
  · exact hk _ _

/-- No instruction stops without a next state, and none is refused. -/
theorem exists_exec_eq_next (i : Instr) (s : State) : ∃ t, exec i s = .next t := by
  cases i with
  | nop | hlt => exact ⟨_, rfl⟩
  | ret => exact exists_pop_eq_next fun _ _ => ⟨_, rfl⟩
  | push r => exact exists_withReg_eq_next fun _ => exists_push_eq_next fun _ => ⟨_, rfl⟩
  | pop r => exact exists_withReg_eq_next fun _ => exists_pop_eq_next fun _ _ => ⟨_, rfl⟩
  | call r =>
    refine exists_withReg_eq_next fun _ => ?_
    split
    · exact ⟨_, rfl⟩
    · exact exists_push_eq_next fun _ => ⟨_, rfl⟩
  | prn r | jmp r | jeq r | jne r | not r | ldi r imm => exact exists_withReg_eq_next fun _ => ⟨_, rfl⟩
  | mod ra rb =>
    refine exists_withRegs_eq_next fun _ _ => ?_
    split <;> exact ⟨_, rfl⟩
  | add ra rb | mul ra rb | cmp ra rb | and ra rb | or ra rb | xor ra rb | shl ra rb | shr ra rb =>
    exact exists_withRegs_eq_next fun _ _ => ⟨_, rfl⟩

/-- A running core answers a next state whatever it fetches: each branch of R71 is an error or an instruction. -/
theorem exists_step_eq_next {s : State} (h : s.Running) : ∃ t, step s = .next t := by
  rcases Nat.lt_or_ge 255 s.pc.toNat with hpc | hpc
  · exact ⟨_, step_eq_next.mpr ⟨h, .inl ⟨hpc, rfl⟩⟩⟩
  · cases hd : decodeAt s with
    | error e => exact ⟨_, step_eq_next.mpr ⟨h, .inr (.inl ⟨hpc, ⟨e, hd⟩, rfl⟩)⟩⟩
    | ok i =>
      obtain ⟨t, ht⟩ := exists_exec_eq_next i s
      exact ⟨t, step_eq_next.mpr ⟨h, .inr (.inr ⟨hpc, i, hd, ht⟩)⟩⟩

/-! ### Loading -/

/-- Everything a load that is accepted can do: it writes memory and nothing else (R148). -/
theorem load_eq_next {p : List Byte} {s t : State} :
    load p s = .next t ↔ p.length ≤ Config.memSize ∧ t = { s with mem := s.mem.setBytes 0 p } := by
  by_cases hp : p.length ≤ Config.memSize <;> simp [load, hp, eq_comm]

/-- Settles O8: a running core's step always answers a next state and no other step does; a load keeps `RUN` and
`FAULT`. -/
theorem stepsAreTakenExactlyWhileRunning : Obligations.StepsAreTakenExactlyWhileRunning := by
  refine ⟨fun s => ⟨fun ⟨t, ht⟩ => ?_, exists_step_eq_next⟩, ⟨rfl, rfl⟩, fun p s hp => ?_⟩
  · obtain ⟨hs, -⟩ := step_eq_next.mp ht
    exact hs
  · obtain ⟨-, rfl⟩ := load_eq_next.mp hp
    exact ⟨rfl, rfl⟩

end Sys2Proof.Machine
end

section
/-! PROOF. The frames of an advance and of a halt and how frames compose, and the two statements of spec/41_system.md
that follow: NOP (R80) and HLT (R81). -/

namespace Sys2Proof.Machine

/-! ### Frames of single operations, and of one after another -/

theorem Piece.Same.trans {p : Piece} {s t u : State} (hst : p.Same s t) (htu : p.Same t u) : p.Same s u := by
  cases p <;> exact Eq.trans htu hst

/-- One change after another touches only what one of the two touches. -/
theorem OnlyChanges.trans {ps qs : List Piece} {s t u : State} (hst : OnlyChanges ps s t) (htu : OnlyChanges qs t u) :
    OnlyChanges (ps ++ qs) s u := by
  intro p hp
  have hps : p ∉ ps := fun h => hp (List.mem_append_left _ h)
  have hqs : p ∉ qs := fun h => hp (List.mem_append_right _ h)
  exact (hst p hps).trans (htu p hqs)

theorem onlyChanges_advance (s : State) (n : Nat) : OnlyChanges [.pc] s (s.advance n) := by
  refine .intro (hpc := fun h => absurd (List.mem_singleton_self _) h) ?_ ?_ ?_ ?_ ?_ ?_ ?_ <;> intros <;> rfl

theorem onlyChanges_halt (s : State) : OnlyChanges [.run] s s.halt := by
  refine .intro (hrun := fun h => absurd (List.mem_singleton_self _) h) ?_ ?_ ?_ ?_ ?_ ?_ ?_ <;> intros <;> rfl

/-! ### The statements -/

/-- Settles O29: NOP answers the advance by 1, whose frame is `pc`. -/
theorem nopAdvancesOnly : Obligations.NopAdvancesOnly :=
  ⟨rfl, fun s => ⟨s.advance 1, exec_nop_iff.mpr rfl, s.advance_pc 1, onlyChanges_advance s 1⟩⟩

/-- Settles O30: HLT answers the halt and then the advance by 1, whose frames compose, and a halted core takes no step
(R70). -/
theorem hltClearsRunAndAdvances : Obligations.HltClearsRunAndAdvances := by
  refine ⟨rfl, fun s => ⟨s.halt.advance 1, exec_hlt_iff.mpr rfl, rfl, rfl, ?_, fun u => ?_⟩⟩
  · exact (onlyChanges_halt s).trans (onlyChanges_advance s.halt 1)
  · simp [step_of_halted (s.halt.advance_run 1)]

end Sys2Proof.Machine
end

section
/-! PROOF. The frame of a register write, and the statement of spec/42_data_stack.md that follows: LDI (R86). -/

namespace Sys2Proof.Machine

theorem onlyChanges_setReg (s : State) (i : RegId) (v : Byte) : OnlyChanges [.reg i] s (s.setReg i v) := by
  refine .intro (hreg := fun j hj => s.reg_setReg_of_ne v ?_) ?_ ?_ ?_ ?_ ?_ ?_ ?_
  · rintro rfl
    exact hj (List.mem_singleton_self _)
  all_goals intros; rfl

/-- Settles O32: a register byte in range answers the register write and then the advance by 3, whose frames compose; any
other latches its record, which keeps the register file. -/
theorem ldiLoadsTheImmediate : Obligations.LdiLoadsTheImmediate := by
  refine ⟨fun r imm => rfl, fun s r imm i hr => ?_, fun s r imm hr => ?_⟩
  · refine ⟨(s.setReg i imm).advance 3, exec_ldi_iff.mpr (.inl ⟨i, hr, rfl⟩), ?_, rfl, ?_⟩
    · rw [State.advance_reg, State.reg_setReg_self]
    · exact (onlyChanges_setReg s i imm).trans (onlyChanges_advance _ 3)
  · exact ⟨s.latch _, exec_ldi_iff.mpr (.inr ⟨hr, rfl⟩), rfl, s.latch_reg _⟩

end Sys2Proof.Machine
end

section
/-! PROOF. The frame of a redirect, and the statement of spec/43_control.md that follows: JMP (R93). -/

namespace Sys2Proof.Machine

theorem onlyChanges_redirect (s : State) (target : Byte) : OnlyChanges [.pc] s (s.redirect target) := by
  refine .intro (hpc := fun h => absurd (List.mem_singleton_self _) h) ?_ ?_ ?_ ?_ ?_ ?_ ?_ <;> intros <;> rfl

/-- Settles O39: a register byte in range answers the redirect to the register's value, whose frame is `pc`; any other
latches its record, which keeps `pc`. -/
theorem jmpGoesToTheRegister : Obligations.JmpGoesToTheRegister := by
  refine ⟨fun r => rfl, fun s r i hr => ?_, fun s r hr => ?_⟩
  · exact ⟨s.redirect (s.reg i), exec_jmp_iff.mpr (.inl ⟨i, hr, rfl⟩), s.redirect_pc _, onlyChanges_redirect s _⟩
  · exact ⟨s.latch _, exec_jmp_iff.mpr (.inr ⟨hr, rfl⟩), rfl, s.latch_pc _⟩

end Sys2Proof.Machine
end

section
/-! PROOF. What the ten ALU instructions can do, once for all of them and once for the seven of the common shape, and the
five statements of spec/44_alu.md that follow: the register file alone (R100), NOT (R102), ADD (R103), MUL (R104), and
AND, OR, XOR (R108 to R110). -/

namespace Sys2Proof.Machine

/-! ### What an ALU instruction reads and writes -/

theorem redirectTarget_of_isAlu {i : Instr} (hi : isAlu i = true) (s : State) : redirectTarget i s = none := by
  cases i <;> cases hi <;> rfl

/-- Every next state of an ALU instruction is that of an error, or an advance by its width after a write of its first
register or, for CMP, of the flags. -/
theorem latch_or_advance_of_exec_alu {i : Instr} {s t : State} (hi : isAlu i = true) (h : exec i s = .next t) :
    (∃ e, t = s.latch e) ∨
    (∃ b rest k v, registerBytes i = b :: rest ∧ b.toNat = k.val ∧ t = (s.setReg k v).advance i.width) ∨
    ∃ fl, t = (s.setFlags fl).advance i.width := by
  rw [i.width_eq]
  cases i with
  | nop | hlt | ret | push r | pop r | prn r | call r | jmp r | jeq r | jne r | ldi r imm => cases hi
  | not r =>
    obtain ⟨k, hk, rfl⟩ | ⟨-, rfl⟩ := exec_not_iff.mp h
    · exact .inr (.inl ⟨_, _, k, _, rfl, hk, rfl⟩)
    · exact .inl ⟨_, rfl⟩
  | mod ra rb =>
    obtain ⟨k, _, hk, -, ⟨-, rfl⟩ | ⟨-, rfl⟩⟩ | ⟨-, -, rfl⟩ | ⟨-, rfl⟩ := exec_mod_iff.mp h
    · exact .inl ⟨_, rfl⟩
    · exact .inr (.inl ⟨_, _, k, _, rfl, hk, rfl⟩)
    · exact .inl ⟨_, rfl⟩
    · exact .inl ⟨_, rfl⟩
  | cmp ra rb =>
    obtain ⟨_, _, -, -, rfl⟩ | ⟨-, -, rfl⟩ | ⟨-, rfl⟩ := exec_cmp_iff.mp h
    · exact .inr (.inr ⟨_, rfl⟩)
    · exact .inl ⟨_, rfl⟩
    · exact .inl ⟨_, rfl⟩
  | add ra rb | mul ra rb | and ra rb | or ra rb | xor ra rb | shl ra rb | shr ra rb =>
    obtain ⟨k, _, hk, -, rfl⟩ | ⟨-, -, rfl⟩ | ⟨-, rfl⟩ := (exec_alu_iff rfl rfl).mp h
    · exact .inr (.inl ⟨_, _, k, _, rfl, hk, rfl⟩)
    · exact .inl ⟨_, rfl⟩
    · exact .inl ⟨_, rfl⟩

/-- `s` with another memory. -/
def State.setMem (m : Memory) (s : State) : State := { s with mem := m }

@[simp] theorem State.setMem_reg (m : Memory) (s : State) (i : RegId) : (s.setMem m).reg i = s.reg i := rfl
@[simp] theorem State.setMem_pc (m : Memory) (s : State) : (s.setMem m).pc = s.pc := rfl

/-- An ALU instruction does the same whatever memory holds: another memory goes through its checks and writes. -/
theorem mapNext_setMem_exec_alu {i : Instr} (hi : isAlu i = true) (s : State) (m : Memory) :
    mapNext (State.setMem m) (exec i s) = exec i (s.setMem m) := by
  cases i with
  | nop | hlt | ret | push r | pop r | prn r | call r | jmp r | jeq r | jne r | ldi r imm => cases hi
  | not r => exact mapNext_withReg (fun _ => rfl) fun _ _ => rfl
  | mod ra rb =>
    refine mapNext_withRegs (fun _ => rfl) fun k l _ _ => ?_
    rw [State.setMem_reg, State.setMem_reg, State.setMem_pc]
    split
    · exact mapNext_raise (fun _ => rfl) _
    · rfl
  | cmp ra rb | add ra rb | mul ra rb | and ra rb | or ra rb | xor ra rb | shl ra rb | shr ra rb =>
    exact mapNext_withRegs (fun _ => rfl) fun _ _ _ _ => rfl

/-! ### The write of a register, then the advance -/

theorem State.reg_setReg_advance_self (s : State) (i : RegId) (v : Byte) (n : Nat) :
    ((s.setReg i v).advance n).reg i = v := by
  rw [State.advance_reg, State.reg_setReg_self]

theorem onlyChanges_setReg_advance (s : State) (i : RegId) (v : Byte) (n : Nat) :
    OnlyChanges [.reg i, .pc] s ((s.setReg i v).advance n) :=
  (onlyChanges_setReg s i v).trans (onlyChanges_advance _ n)

/-! ### The seven instructions of the common shape -/

section Binary

variable {i : Instr} {f : Byte → Byte → Byte} {ra rb : Byte} (hf : aluFunction i = some f)
  (hr : registerBytes i = [ra, rb])
include hf hr

/-- With both register bytes in range: the function of both registers into the first, and `pc` past the instruction. -/
theorem exec_alu_writes_first {k l : RegId} (hk : ra.toNat = k.val) (hl : rb.toNat = l.val) (s : State) :
    ∃ t, exec i s = .next t ∧ t.reg k = f (s.reg k) (s.reg l) ∧ t.pc = s.pc + 3#9 ∧ OnlyChanges [.reg k, .pc] s t :=
  ⟨_, (exec_alu_iff hf hr).mpr (.inl ⟨k, l, hk, hl, rfl⟩), State.reg_setReg_advance_self s k _ 3, rfl,
    onlyChanges_setReg_advance s k _ 3⟩

/-- A register byte above 7 in either place is reported, the first one first. -/
theorem exec_alu_outOfBounds (h : 7 < ra.toNat ∨ 7 < rb.toNat) (s : State) :
    ∃ t a, exec i s = .next t ∧ t.fault = some (.outOfBoundsAccess a) := by
  rcases Nat.lt_or_ge ra.toNat 8 with ha | ha
  · have hb : 8 ≤ rb.toNat := h.resolve_left (by omega)
    exact ⟨_, _, (exec_alu_iff hf hr).mpr (.inr (.inl ⟨ha, hb, rfl⟩)), s.latch_fault _⟩
  · exact ⟨_, _, (exec_alu_iff hf hr).mpr (.inr (.inr ⟨ha, rfl⟩)), s.latch_fault _⟩

end Binary

/-! ### The statements -/

/-- Settles O28: a next state of an ALU instruction is an error's, or an advance after a write of the first register or of
the flags, and memory goes through it unread. -/
theorem aluTouchesOnlyTheRegisterFile : Obligations.AluTouchesOnlyTheRegisterFile := by
  intro i s hi
  refine ⟨redirectTarget_of_isAlu hi s, fun t h => ?_, fun m => (mapNext_setMem_exec_alu hi s m).symm⟩
  obtain ⟨e, rfl⟩ | ⟨b, rest, k, v, hreg, hk, rfl⟩ | ⟨fl, rfl⟩ := latch_or_advance_of_exec_alu hi h
  · exact ⟨rfl, rfl, s.latch_memRead e, fun k hne => absurd (s.latch_reg e k) hne, .inr ⟨rfl, e, h⟩⟩
  · refine ⟨rfl, rfl, fun a => rfl, fun j hne => ⟨b, rest, hreg, ?_⟩, .inl rfl⟩
    have hkj : k = j := by
      by_contra hkj
      exact hne (s.reg_setReg_of_ne v hkj)
    rw [hk, hkj]
  · exact ⟨rfl, rfl, fun a => rfl, fun k hne => absurd (s.setFlags_reg fl k) hne, .inl rfl⟩

/-- Settles O42: the exclusive or with eight ones is the complement. -/
theorem notInvertsEveryBit : Obligations.NotInvertsEveryBit := by
  refine ⟨fun r => rfl, fun s r i hr => ?_, fun s r hr => ?_⟩
  · have hcompl : s.reg i ^^^ 0xFF#8 = ~~~(s.reg i) := BitVec.xor_allOnes
    refine ⟨_, exec_not_iff.mpr (.inl ⟨i, hr, rfl⟩), ?_, fun k hk => ?_, rfl, onlyChanges_setReg_advance s i _ 2⟩
    · rw [State.reg_setReg_advance_self, hcompl, BitVec.toNat_not]
    · rw [State.reg_setReg_advance_self, hcompl, BitVec.getLsbD_not, decide_eq_true hk, Bool.true_and]
  · exact ⟨s.latch _, exec_not_iff.mpr (.inr ⟨hr, rfl⟩), s.latch_fault _⟩

/-- Settles O43: ADD is of the common shape, and its function is commutative. -/
theorem addIsTheSumModulo256 : Obligations.AddIsTheSumModulo256 := by
  refine ⟨fun ra rb => rfl, fun s ra rb i j hi hj => ?_, fun s ra rb => (exec_alu_outOfBounds rfl rfl · s)⟩
  obtain ⟨t, ht, hsum, hpc, hframe⟩ := exec_alu_writes_first (i := .add ra rb) rfl rfl hi hj s
  obtain ⟨u, hu, hswapped, -, -⟩ := exec_alu_writes_first (i := .add rb ra) rfl rfl hj hi s
  refine ⟨t, u, ht, ?_, hpc, hframe, hu, ?_⟩
  · rw [hsum, BitVec.toNat_ofNat]
  · rw [hswapped, hsum, Nat.add_comm]

/-- Settles O44: MUL is of the common shape. -/
theorem mulIsTheProductModulo256 : Obligations.MulIsTheProductModulo256 := by
  refine ⟨fun ra rb => rfl, fun s ra rb i j hi hj => ?_, fun s ra rb => (exec_alu_outOfBounds rfl rfl · s)⟩
  obtain ⟨t, ht, hproduct, hpc, hframe⟩ := exec_alu_writes_first (i := .mul ra rb) rfl rfl hi hj s
  refine ⟨t, ht, ?_, hpc, hframe⟩
  rw [hproduct, BitVec.toNat_ofNat]

/-- Settles O47: AND, OR and XOR are of the common shape, and each of their functions works bit by bit. -/
theorem bitwiseInstructionsWorkBitByBit : Obligations.BitwiseInstructionsWorkBitByBit := by
  refine ⟨fun ra rb => ⟨rfl, rfl, rfl⟩, fun s ra rb i j hi hj => ⟨?_, ?_, ?_⟩, fun s i ra rb hins hbad => ?_⟩
  · obtain ⟨t, ht, hand, hpc, hframe⟩ := exec_alu_writes_first (i := .and ra rb) rfl rfl hi hj s
    exact ⟨t, ht, hpc, hframe, fun k => by rw [hand, BitVec.getLsbD_and]⟩
  · obtain ⟨t, ht, hor, hpc, hframe⟩ := exec_alu_writes_first (i := .or ra rb) rfl rfl hi hj s
    exact ⟨t, ht, hpc, hframe, fun k => by rw [hor, BitVec.getLsbD_or]⟩
  · obtain ⟨t, ht, hxor, hpc, hframe⟩ := exec_alu_writes_first (i := .xor ra rb) rfl rfl hi hj s
    exact ⟨t, ht, hpc, hframe, fun k => by rw [hxor, BitVec.getLsbD_xor]⟩
  · obtain rfl | rfl | rfl := hins <;> exact exec_alu_outOfBounds rfl rfl hbad s

end Sys2Proof.Machine
end

section
/-! PROOF. What the encoder writes is what the decoder reads, in a list of bytes and in memory, and the four statements
that follow: the table's words (R55, R63), both round trips (R50, R51, R63) and the stored instruction (R39, R71). -/

namespace Sys2Proof.Machine

/-! ### The operand bytes of an encoding -/

theorem opcode_div_64 (i : Instr) : i.opcode.toNat / 64 = i.operands.length :=
  Nat.succ_injective i.width_eq

/-- More elements after a list's are read only where the list has none. -/
theorem getD_append_eq_getD {α : Type} (l r : List α) (n : Nat) (d : α) :
    (l ++ r).getD n d = l.getD n ((l ++ r).getD n d) := by
  rcases Nat.lt_or_ge n l.length with h | h
  · rw [List.getD_append _ _ _ _ h, List.getD_eq_getElem _ _ h, List.getD_eq_getElem _ _ h]
  · rw [List.getD_eq_default l _ h]

/-- Settles O2: the bytes at the operands' places are the operands where there are any, and the rest begins after as
many bytes as the opcode counts. -/
theorem decodeOfEncodeIsTheInstruction : Obligations.DecodeOfEncodeIsTheInstruction := by
  intro i rest
  have hd : decode i.opcode ((i.operands ++ rest).getD 0 Config.oobOperand)
      ((i.operands ++ rest).getD 1 Config.oobOperand) = .ok i := by
    rw [getD_append_eq_getD _ _ 0, getD_append_eq_getD _ _ 1, decode_operands]
  rw [encode, List.cons_append, decodeBytes_cons_of_ok hd, opcode_div_64, List.drop_left]

/-- Settles O3: what is decoded carries the opcode byte and as many operand bytes as it counts. -/
theorem decodedInstructionEncodesToTheFetchedBytes : Obligations.DecodedInstructionEncodesToTheFetchedBytes := by
  intro op a b i h
  rw [encode, opcode_of_decode h, operands_of_decode h, List.take_succ_cons]

/-- Settles O1, by evaluating the decoder on the nine words. -/
theorem tableWordsDecodeAsWritten : Obligations.TableWordsDecodeAsWritten := by
  unfold Obligations.TableWordsDecodeAsWritten
  decide

/-! ### A step that decodes an instruction runs it -/

theorem step_of_decodeAt {s : State} {i : Instr} (hs : s.Running) (hpc : s.pc.toNat ≤ 255) (hd : decodeAt s = .ok i) :
    step s = exec i s := by
  obtain ⟨t, ht⟩ := exists_exec_eq_next i s
  rw [ht]
  exact step_eq_next.mpr ⟨hs, .inr (.inr ⟨hpc, i, hd, ht⟩)⟩

/-! ### An encoding in memory -/

theorem fetchOperand_of_lt (s : State) {p : PcWord} (h : p.toNat < 256) : fetchOperand s p = s.mem.byteAt p.toNat := by
  rw [fetchOperand, if_pos (show p.toNat < Config.memSize from h), State.memRead, BitVec.toNat_setWidth,
    Nat.mod_eq_of_lt h]

/-- `s` with the bytes of `i` stored at `pc` upward. -/
def State.store (s : State) (i : Instr) : State := { s with mem := s.mem.setBytes s.pc.toNat (encode i) }

@[simp] theorem State.store_pc (s : State) (i : Instr) : (s.store i).pc = s.pc := rfl

section Store

variable {s : State} {i : Instr} (hwf : s.mem.wf) (hfit : s.pc.toNat + i.width ≤ 256)
include hwf hfit

theorem byteAt_store {k : Nat} (hk : k < i.width) :
    (s.store i).mem.byteAt (s.pc.toNat + k) = (encode i).getD k 0 := by
  have hb : s.pc.toNat + k < Config.memSize := Nat.lt_of_lt_of_le (Nat.add_lt_add_left hk _) hfit
  have hin : s.pc.toNat ≤ s.pc.toNat + k ∧ s.pc.toNat + k < s.pc.toNat + (encode i).length := by
    rw [length_encode]; omega
  rw [State.store, Memory.byteAt_setBytes hwf _ _ _ hb, if_pos hin, Nat.add_sub_cancel_left]

theorem fetchOpcode_store : fetchOpcode (s.store i) = i.opcode := by
  have hw := i.width_pos
  have hlt : s.pc.toNat < 2 ^ 8 := by omega
  rw [fetchOpcode, State.memRead, State.store_pc, BitVec.toNat_setWidth, Nat.mod_eq_of_lt hlt]
  exact byteAt_store hwf hfit hw

/-- A fetch of an operand byte reads the instruction's operand at that place, if it has one. -/
theorem fetchOperand_store {k : Nat} (hk : k < 2) :
    fetchOperand (s.store i) (s.pc + BitVec.ofNat 9 (k + 1)) =
      i.operands.getD k (fetchOperand (s.store i) (s.pc + BitVec.ofNat 9 (k + 1))) := by
  rcases Nat.lt_or_ge k i.operands.length with h | h
  · have hw := i.width_eq
    have hp : (s.pc + BitVec.ofNat 9 (k + 1)).toNat = s.pc.toNat + (k + 1) := by
      rw [BitVec.toNat_add, BitVec.toNat_ofNat]; omega
    have hbyte := byteAt_store hwf hfit (k := k + 1) (by omega)
    rw [fetchOperand_of_lt _ (by omega), hp, hbyte, encode, List.getD_cons_succ, List.getD_eq_getElem _ _ h,
      List.getD_eq_getElem _ _ h]
  · rw [List.getD_eq_default _ _ h]

theorem decodeAt_store : decodeAt (s.store i) = .ok i := by
  rw [decodeAt, fetchOpcode_store hwf hfit, State.store_pc]
  exact (congrArg₂ (decode i.opcode) (fetchOperand_store hwf hfit (k := 0) (by omega))
    (fetchOperand_store hwf hfit (k := 1) (by omega))).trans (decode_operands i _ _)

end Store

/-- Settles O7: the three fetches read the opcode and the operands back, so they decode to the instruction. -/
theorem storedInstructionIsTheOneThatRuns : Obligations.StoredInstructionIsTheOneThatRuns := by
  intro s i hs hwf hfit
  have hw := i.width_pos
  have hpc : (s.store i).pc.toNat ≤ 255 := by rw [State.store_pc]; omega
  exact step_of_decodeAt (s := s.store i) hs hpc (decodeAt_store hwf hfit)

end Sys2Proof.Machine
end

section
/-! PROOF. What an instruction that completes writes and which errors it raises, once for all 21 instructions, and the
statements that follow: every instruction answers (R126), errors are precise (R126), register bytes are checked first
(R53, R113, R130), each instruction raises its own errors (R131), and who writes `sp` (R17, R18), memory (R33, R37) and
the registers (R13). -/

namespace Sys2Proof.Machine

/-! ### The register check comes first -/

theorem exec_eq_withReg {i : Instr} {r : Byte} {rest : List Byte} (h : registerBytes i = r :: rest) (s : State) :
    ∃ k, exec i s = withReg r s k := by
  cases i <;> cases h <;> exact ⟨_, rfl⟩

theorem exec_eq_withRegs {i : Instr} {ra rb : Byte} (h : registerBytes i = [ra, rb]) (s : State) :
    ∃ k, exec i s = withRegs ra rb s k := by
  cases i <;> cases h <;> exact ⟨_, rfl⟩

/-! ### What a completed instruction writes, and what an error records -/

/-- The errors an instruction raises in `s`, each with the record it latches (R120 to R125). -/
inductive OwnError (s : State) : Instr → ErrorRecord → Prop where
  | registerByte {i : Instr} {b : Byte} (hb : b ∈ registerBytes i) (h : 8 ≤ b.toNat) :
    OwnError s i (.outOfBoundsAccess (b.setWidth 9))
  | zeroDivisor (ra rb : Byte) : OwnError s (.mod ra rb) (.divisionByZero s.pc)
  | returnAddress (r : Byte) (h : 255 < (s.pc + 2#9).toNat) : OwnError s (.call r) (.outOfBoundsAccess (s.pc + 2#9))
  | emptyStack {i : Instr} (hi : (∃ r, i = .pop r) ∨ i = .ret) (h : s.sp = 255#8) : OwnError s i .stackUnderflow
  | fullStack {i : Instr} (hi : ∃ r, i = .push r ∨ i = .call r) (h : s.sp = 0#8) : OwnError s i .stackOverflow

/-- The opcodes of the instructions that write a general register: LDI, POP and the ALU but CMP (R13). -/
def registerWriters : List Nat := [70, 105, 130, 160, 162, 164, 168, 170, 171, 172, 173]

/-- `k` is the register that the instruction may write: the one its first operand names, if it writes one (R13). -/
def IsDestination (i : Instr) (k : RegId) : Prop :=
  i.opcode.toNat ∈ registerWriters ∧ ∃ b rest, registerBytes i = b :: rest ∧ b.toNat = k.val

/-- What a completed instruction does to `sp` and memory. -/
inductive StackEffect (i : Instr) (s t : State) : Prop where
  | kept (hsp : t.sp = s.sp) (hmem : t.mem = s.mem)
  | pushed (v : Byte) (hi : ∃ r, i = .push r ∨ i = .call r) (h : s.sp ≠ 0#8) (hsp : t.sp = s.sp - 1#8)
    (hmem : t.mem = s.mem.setByte (s.sp - 1#8).toNat v)
  | popped (hi : (∃ r, i = .pop r) ∨ i = .ret) (h : s.sp ≠ 255#8) (hsp : t.sp = s.sp + 1#8) (hmem : t.mem = s.mem)

/-- `t` is what `i` leaves of `s` when it raises no error, in the registers, `sp` and memory. -/
structure Writes (i : Instr) (s t : State) : Prop where
  fault : t.fault = s.fault
  reg : ∀ k, t.reg k = s.reg k ∨ IsDestination i k
  stack : StackEffect i s t

/-- An instruction that writes neither a register nor the stack. -/
theorem Writes.of_kept {i : Instr} {s t : State} (hfault : t.fault = s.fault) (hx : t.x = s.x) (hsp : t.sp = s.sp)
    (hmem : t.mem = s.mem) : Writes i s t :=
  ⟨hfault, fun k => .inl (congrArg (·.get k) hx), .kept hsp hmem⟩

/-- A write of the register that the first operand names. -/
theorem reg_setReg_or_isDestination {i : Instr} {b : Byte} {rest : List Byte} {d : RegId} (s : State) (v : Byte)
    (hop : decide (i.opcode.toNat ∈ registerWriters) = true) (hr : registerBytes i = b :: rest)
    (hd : b.toNat = d.val) (k : RegId) :
    (s.setReg d v).reg k = s.reg k ∨ IsDestination i k := by
  rcases eq_or_ne d k with rfl | hne
  · exact .inr ⟨of_decide_eq_true hop, b, rest, hr, hd⟩
  · exact .inl (s.reg_setReg_of_ne v hne)

/-- Every next state of an instruction is that of one of its own errors, or that of its completion. -/
theorem latch_or_writes_of_exec {i : Instr} {s t : State} (h : exec i s = .next t) :
    (∃ e, OwnError s i e ∧ t = s.latch e) ∨ Writes i s t := by
  cases i with
  | nop =>
    obtain rfl := exec_nop_iff.mp h
    exact .inr (.of_kept rfl rfl rfl rfl)
  | hlt =>
    obtain rfl := exec_hlt_iff.mp h
    exact .inr (.of_kept rfl rfl rfl rfl)
  | ret =>
    obtain ⟨hsp, rfl⟩ | ⟨hsp, rfl⟩ := exec_ret_iff.mp h
    · exact .inr ⟨rfl, fun _ => .inl rfl, .popped (.inr rfl) hsp rfl rfl⟩
    · exact .inl ⟨_, .emptyStack (.inr rfl) hsp, rfl⟩
  | push r =>
    obtain ⟨_, -, ⟨hsp, rfl⟩ | ⟨hsp, rfl⟩⟩ | ⟨hb, rfl⟩ := exec_push_iff.mp h
    · exact .inr ⟨rfl, fun _ => .inl rfl, .pushed _ ⟨r, .inl rfl⟩ hsp rfl rfl⟩
    · exact .inl ⟨_, .fullStack ⟨r, .inl rfl⟩ hsp, rfl⟩
    · exact .inl ⟨_, .registerByte (List.mem_singleton_self r) hb, rfl⟩
  | pop r =>
    obtain ⟨_, hr, ⟨hsp, rfl⟩ | ⟨hsp, rfl⟩⟩ | ⟨hb, rfl⟩ := exec_pop_iff.mp h
    · exact .inr ⟨rfl, reg_setReg_or_isDestination _ _ rfl rfl hr, .popped (.inl ⟨r, rfl⟩) hsp rfl rfl⟩
    · exact .inl ⟨_, .emptyStack (.inl ⟨r, rfl⟩) hsp, rfl⟩
    · exact .inl ⟨_, .registerByte (List.mem_singleton_self r) hb, rfl⟩
  | prn r =>
    obtain ⟨_, -, rfl⟩ | ⟨hb, rfl⟩ := exec_prn_iff.mp h
    · exact .inr (.of_kept rfl rfl rfl rfl)
    · exact .inl ⟨_, .registerByte (List.mem_singleton_self r) hb, rfl⟩
  | call r =>
    obtain ⟨_, -, ⟨hpc, rfl⟩ | ⟨-, hsp, rfl⟩ | ⟨-, hsp, rfl⟩⟩ | ⟨hb, rfl⟩ := exec_call_iff.mp h
    · exact .inl ⟨_, .returnAddress r hpc, rfl⟩
    · exact .inr ⟨rfl, fun _ => .inl rfl, .pushed _ ⟨r, .inr rfl⟩ hsp rfl rfl⟩
    · exact .inl ⟨_, .fullStack ⟨r, .inr rfl⟩ hsp, rfl⟩
    · exact .inl ⟨_, .registerByte (List.mem_singleton_self r) hb, rfl⟩
  | jmp r =>
    obtain ⟨_, -, rfl⟩ | ⟨hb, rfl⟩ := exec_jmp_iff.mp h
    · exact .inr (.of_kept rfl rfl rfl rfl)
    · exact .inl ⟨_, .registerByte (List.mem_singleton_self r) hb, rfl⟩
  | jeq r =>
    obtain ⟨_, -, rfl⟩ | ⟨hb, rfl⟩ := exec_jeq_iff.mp h
    · split <;> exact .inr (.of_kept rfl rfl rfl rfl)
    · exact .inl ⟨_, .registerByte (List.mem_singleton_self r) hb, rfl⟩
  | jne r =>
    obtain ⟨_, -, rfl⟩ | ⟨hb, rfl⟩ := exec_jne_iff.mp h
    · split <;> exact .inr (.of_kept rfl rfl rfl rfl)
    · exact .inl ⟨_, .registerByte (List.mem_singleton_self r) hb, rfl⟩
  | not r =>
    obtain ⟨_, hr, rfl⟩ | ⟨hb, rfl⟩ := exec_not_iff.mp h
    · exact .inr ⟨rfl, reg_setReg_or_isDestination s _ rfl rfl hr, .kept rfl rfl⟩
    · exact .inl ⟨_, .registerByte (List.mem_singleton_self r) hb, rfl⟩
  | ldi r imm =>
    obtain ⟨_, hr, rfl⟩ | ⟨hb, rfl⟩ := exec_ldi_iff.mp h
    · exact .inr ⟨rfl, reg_setReg_or_isDestination s _ rfl rfl hr, .kept rfl rfl⟩
    · exact .inl ⟨_, .registerByte (List.mem_singleton_self r) hb, rfl⟩
  | mod ra rb =>
    obtain ⟨_, _, hr, -, ⟨-, rfl⟩ | ⟨-, rfl⟩⟩ | ⟨-, hb, rfl⟩ | ⟨hb, rfl⟩ := exec_mod_iff.mp h
    · exact .inl ⟨_, .zeroDivisor ra rb, rfl⟩
    · exact .inr ⟨rfl, reg_setReg_or_isDestination s _ rfl rfl hr, .kept rfl rfl⟩
    · exact .inl ⟨_, .registerByte (List.mem_pair.mpr (.inr rfl)) hb, rfl⟩
    · exact .inl ⟨_, .registerByte (List.mem_pair.mpr (.inl rfl)) hb, rfl⟩
  | cmp ra rb =>
    obtain ⟨_, _, -, -, rfl⟩ | ⟨-, hb, rfl⟩ | ⟨hb, rfl⟩ := exec_cmp_iff.mp h
    · exact .inr (.of_kept rfl rfl rfl rfl)
    · exact .inl ⟨_, .registerByte (List.mem_pair.mpr (.inr rfl)) hb, rfl⟩
    · exact .inl ⟨_, .registerByte (List.mem_pair.mpr (.inl rfl)) hb, rfl⟩
  | add ra rb | mul ra rb | and ra rb | or ra rb | xor ra rb | shl ra rb | shr ra rb =>
    obtain ⟨_, _, hr, -, rfl⟩ | ⟨-, hb, rfl⟩ | ⟨hb, rfl⟩ := (exec_alu_iff rfl rfl).mp h
    · exact .inr ⟨rfl, reg_setReg_or_isDestination s _ rfl rfl hr, .kept rfl rfl⟩
    · exact .inl ⟨_, .registerByte (List.mem_pair.mpr (.inr rfl)) hb, rfl⟩
    · exact .inl ⟨_, .registerByte (List.mem_pair.mpr (.inl rfl)) hb, rfl⟩

/-! ### The statements -/

/-- Settles O12, once for every instruction in `exists_exec_eq_next`. -/
theorem everyInstructionAnswersANextState : Obligations.EveryInstructionAnswersANextState :=
  exists_exec_eq_next

/-- Settles O17: a step either latches a record and changes nothing else, or completes and keeps the empty latch. -/
theorem errorsArePrecise : Obligations.ErrorsArePrecise := by
  intro s t e h ht
  obtain ⟨e', rfl⟩ | ⟨hf, -, i, -, hc⟩ := latch_or_completes_of_step h
  · obtain rfl : e' = e := Option.some.inj ht
    rfl
  · rw [hc.fault, hf] at ht
    cases ht

/-- Settles O18: the meaning of an instruction with a register byte begins with that byte's check. -/
theorem registerBytesAreCheckedWholeAndFirst : Obligations.RegisterBytesAreCheckedWholeAndFirst := by
  refine ⟨fun i s r rest hr hbad => ?_, fun i s ra rb hr ha hbad => ?_⟩
  · obtain ⟨k, hk⟩ := exec_eq_withReg hr s
    exact hk.trans (withReg_of_ge hbad s k)
  · obtain ⟨k, hk⟩ := exec_eq_withRegs hr s
    exact hk.trans (withRegs_eq_next.mpr (.inr (.inl ⟨by omega, hbad, rfl⟩)))

/-- An instruction within memory has each of its errors in its row of the table (R131). -/
theorem OwnError.mayRaise {i : Instr} {s : State} {e : ErrorRecord} (h : OwnError s i e) (hpc : s.pc.toNat ≤ 255) :
    mayRaise i e = true := by
  cases h with
  | zeroDivisor ra rb => rfl
  | emptyStack hi => obtain ⟨r, rfl⟩ | rfl := hi <;> rfl
  | fullStack hi => obtain ⟨r, rfl | rfl⟩ := hi <;> rfl
  | returnAddress r h =>
    have hle : (s.pc + 2#9).toNat ≤ 257 := by bv_omega
    exact decide_eq_true ⟨by omega, hle⟩
  | @registerByte i b hb h =>
    have hle := b.isLt
    have hw : (b.setWidth 9).toNat = b.toNat := BitVec.toNat_setWidth_of_le (by decide)
    cases i with
    | nop | hlt | ret => cases hb
    | call r => exact decide_eq_true (by omega)
    | push r | pop r | prn r | jmp r | jeq r | jne r | not r | ldi r imm | add ra rb | mul ra rb | mod ra rb
    | cmp ra rb | and ra rb | or ra rb | xor ra rb | shl ra rb | shr ra rb => exact decide_eq_true (by omega)

/-- Settles O19: the record latched is of one of the instruction's own errors. -/
theorem instructionsRaiseOnlyTheirOwnErrors : Obligations.InstructionsRaiseOnlyTheirOwnErrors := by
  intro i s t e hf hpc h ht
  obtain ⟨e', he, rfl⟩ | hw := latch_or_writes_of_exec h
  · obtain rfl : e' = e := Option.some.inj ht
    exact he.mayRaise hpc
  · rw [hw.fault, hf] at ht
    cases ht

/-- Settles O24: a push needs `sp` above 0 and a pop needs it below 255. -/
theorem stackPointerMovesByOneWithoutWrapping : Obligations.StackPointerMovesByOneWithoutWrapping := by
  intro i s t h
  obtain ⟨e, -, rfl⟩ | hw := latch_or_writes_of_exec h
  · exact .inl rfl
  · cases hw.stack with
    | kept hsp _ => exact .inl hsp
    | pushed _ hi h0 hsp _ => exact .inr (.inl ⟨by rw [hsp]; bv_omega, hi⟩)
    | popped hi h255 hsp _ => exact .inr (.inr ⟨by rw [hsp]; bv_omega, hi⟩)

/-- Settles O25: only a push writes memory, at `sp - 1`, and `sp` is not 0 then. -/
theorem memoryChangesOnlyAtThePushedByte : Obligations.MemoryChangesOnlyAtThePushedByte := by
  intro i s t hwf h a hne
  obtain ⟨e, -, rfl⟩ | hw := latch_or_writes_of_exec h
  · exact absurd rfl hne
  · cases hw.stack with
    | kept _ hmem => exact absurd (congrArg (Memory.byteAt · a.toNat) hmem) hne
    | popped _ _ _ hmem => exact absurd (congrArg (Memory.byteAt · a.toNat) hmem) hne
    | pushed v hi h0 _ hmem =>
      have ha : s.sp - 1#8 = a := by
        by_contra hna
        refine hne (Eq.trans ?_ (State.memRead_memWrite_of_ne hwf v hna))
        rw [State.memRead, State.memRead, hmem, State.memWrite_mem]
      exact ⟨hi, h0, ha.symm, by rw [← ha]; bv_omega⟩

/-- Settles O26: an error leaves the registers, and a completed instruction writes its destination at most. -/
theorem registersChangeOnlyAtTheDestination : Obligations.RegistersChangeOnlyAtTheDestination := by
  intro i s t k h hne
  obtain ⟨e, -, rfl⟩ | hw := latch_or_writes_of_exec h
  · exact absurd rfl hne
  · exact (hw.reg k).resolve_left hne

end Sys2Proof.Machine
end

section
/-! PROOF. The invariant of the core holds after reset and is kept by every step; the values after reset (R28); and what
the loader leaves (R148). -/

namespace Sys2Proof.Machine

/-! ### A record describes the state it is raised in -/

/-- Latching a record changes nothing a record speaks of. -/
theorem ErrorRecord.describes_latch {s : State} {e e' : ErrorRecord} : e.Describes (s.latch e') ↔ e.Describes s := by
  cases e <;> rfl

/-- The errors of the instruction decoded at `pc` describe the state. -/
theorem OwnError.describes {i : Instr} {s : State} {e : ErrorRecord} (h : OwnError s i e) (hpc : s.pc.toNat ≤ 255)
    (hd : decodeAt s = .ok i) : e.Describes s := by
  have hop := opcode_of_decodeAt hd
  cases h with
  | @registerByte i b _ h =>
    have hw : (b.setWidth 9).toNat = b.toNat := BitVec.toNat_setWidth_of_le (by decide)
    have hle := b.isLt
    exact .inl ⟨by omega, by omega, hpc⟩
  | zeroDivisor ra rb => exact ⟨rfl, hpc, hop.symm⟩
  | returnAddress r h => exact .inr (.inr ⟨by bv_omega, by bv_omega, hop.symm⟩)
  | emptyStack hi h =>
    obtain ⟨r, rfl⟩ | rfl := hi
    · exact ⟨h, .inl hop.symm⟩
    · exact ⟨h, .inr hop.symm⟩
  | fullStack hi h =>
    obtain ⟨r, rfl | rfl⟩ := hi
    · exact ⟨h, .inl hop.symm⟩
    · exact ⟨h, .inr hop.symm⟩

/-! ### Each part of the invariant -/

theorem State.Inv.latch {s : State} (hs : s.Inv) (hrun : s.run = true) {e : ErrorRecord} (he : e.Describes s) :
    (s.latch e).Inv where
  memWf := hs.memWf
  pcLe := hs.pcLe
  flags := hs.flags
  faultRunning _ := hrun
  record e' h := by
    obtain rfl : e = e' := Option.some.inj h
    exact ErrorRecord.describes_latch.mpr he

theorem StackEffect.mem_wf {i : Instr} {s t : State} (h : StackEffect i s t) (hs : s.mem.wf) : t.mem.wf := by
  cases h with
  | kept _ hmem => rwa [hmem]
  | popped _ _ _ hmem => rwa [hmem]
  | pushed v _ _ _ hmem =>
    rw [hmem]
    exact Memory.setByte_wf hs (s.sp - 1#8).isLt v

theorem nextPc_le {s : State} (i : Instr) (hpc : s.pc.toNat ≤ 255) : (nextPc i s).toNat ≤ 258 := by
  cases ht : redirectTarget i s with
  | some target =>
    have hlt := target.isLt
    rw [nextPc_of_redirect ht, BitVec.toNat_setWidth_of_le (by decide)]
    omega
  | none =>
    have hw := i.width_le
    rw [nextPc_of_advance ht hpc]
    omega

theorem compareFlags_atMostOne (A B : Byte) : (compareFlags A B).AtMostOne := by
  rcases compareFlags_cases A B with ⟨-, h⟩ | ⟨-, h⟩ | ⟨-, h⟩ <;> rw [h] <;> decide

theorem flags_atMostOne_of_exec {i : Instr} {s t : State} (h : exec i s = .next t) (hs : s.fl.AtMostOne) :
    t.fl.AtMostOne := by
  obtain ⟨e, rfl⟩ | hc := latch_or_completes_of_exec h
  · exact hs
  · obtain hfl | ⟨ra, rb, rfl⟩ := hc.fl
    · rwa [hfl]
    · obtain ⟨i, j, -, -, rfl⟩ | ⟨-, -, rfl⟩ | ⟨-, rfl⟩ := exec_cmp_iff.mp h
      · exact compareFlags_atMostOne _ _
      · exact hs
      · exact hs

/-- Where nothing is latched, an instruction either latches one of its own errors or completes. -/
theorem latch_or_completes_and_writes_of_exec {i : Instr} {s t : State} (hf : s.fault = none) (h : exec i s = .next t) :
    (∃ e, OwnError s i e ∧ t = s.latch e) ∨ (Completes i s t ∧ Writes i s t) := by
  refine (latch_or_writes_of_exec h).imp_right fun hw => ⟨?_, hw⟩
  obtain ⟨e, rfl⟩ | hc := latch_or_completes_of_exec h
  · exact absurd (hw.fault.trans hf) (Option.some_ne_none e)
  · exact hc

/-- The instruction decoded at `pc` keeps the invariant. -/
theorem State.Inv.exec {i : Instr} {s t : State} (hs : s.Inv) (hr : s.Running) (hpc : s.pc.toNat ≤ 255)
    (hd : decodeAt s = .ok i) (h : exec i s = .next t) : t.Inv := by
  obtain ⟨hrun, hf⟩ := hr
  obtain ⟨e, he, rfl⟩ | ⟨hc, hw⟩ := latch_or_completes_and_writes_of_exec hf h
  · exact hs.latch hrun (he.describes hpc hd)
  · have hft : t.fault = none := hc.fault.trans hf
    exact ⟨hw.stack.mem_wf hs.memWf, hc.pc ▸ nextPc_le i hpc, flags_atMostOne_of_exec h hs.flags,
      fun hn => absurd hft hn, fun e he => by simp [hft] at he⟩

/-! ### The statements -/

/-- Settles O15: each of the three things a step can be keeps the invariant. -/
theorem invariantIsKeptByEveryStep : Obligations.InvariantIsKeptByEveryStep := by
  intro s t hs h
  obtain ⟨hr, ⟨hpc, rfl⟩ | ⟨hpc, ⟨e, hd⟩, rfl⟩ | ⟨hpc, i, hd, he⟩⟩ := step_eq_next.mp h
  · exact hs.latch hr.1 (.inr (.inl ⟨rfl, hpc, hs.pcLe⟩))
  · exact hs.latch hr.1 ⟨rfl, hpc, rfl, decode_error_any hd⟩
  · exact hs.exec hr hpc hd he

/-- Settles O14: memory is empty, no flag is set and nothing is latched. -/
theorem resetMeetsTheInvariant : Obligations.ResetMeetsTheInvariant where
  memWf := State.reset_mem_wf
  pcLe := by decide
  flags := by decide
  faultRunning _ := rfl
  record _ he := by cases he

/-- Settles O13, field by field. -/
theorem resetLeavesTheStatedValues : Obligations.ResetLeavesTheStatedValues :=
  ⟨by decide, rfl, rfl, rfl, rfl, rfl, rfl, rfl, rfl, fun _ => rfl⟩

/-- Settles O16: what is loaded reads back at its addresses, and the rest reads as after reset. -/
theorem loaderWritesTheProgramFromAddressZero : Obligations.LoaderWritesTheProgramFromAddressZero := by
  refine fun p => ⟨fun hp => ?_, fun hp => if_neg (Nat.not_le.mpr hp)⟩
  refine ⟨_, load_eq_next.mpr ⟨hp, rfl⟩, Memory.setBytes_wf State.reset_mem_wf 0 p, fun a => ?_, rfl⟩
  refine (Memory.byteAt_setBytes State.reset_mem_wf 0 a.toNat p a.isLt).trans ?_
  split
  · rfl
  next hout =>
    have hlen : p.length ≤ a.toNat := by omega
    rw [List.getD_eq_default _ _ hlen]
    rfl

end Sys2Proof.Machine
end

section
/-! PROOF. What has no influence: `FL.L` and `FL.G` on anything but themselves, over any run (R19, D7), and a register
that an instruction does not name on that instruction (R13). -/

namespace Sys2Proof.Machine

/-! ### `FL.L` and `FL.G` -/

/-- With other values of `FL.L` and `FL.G` an instruction does the same, but for `FL.L` and `FL.G`: CMP overwrites them,
every other instruction passes them on. -/
theorem exec_setLessGreater {i : Instr} {s t : State} (l g : Bool) (h : exec i s = .next t) :
    ∃ l' g', exec i (s.setLessGreater l g) = .next (t.setLessGreater l' g') := by
  by_cases hcmp : ∃ ra rb, i = .cmp ra rb
  · obtain ⟨ra, rb, rfl⟩ := hcmp
    obtain ⟨j, k, hj, hk, rfl⟩ | ⟨ha, hb, rfl⟩ | ⟨ha, rfl⟩ := exec_cmp_iff.mp h
    · exact ⟨_, _, exec_cmp_iff.mpr (.inl ⟨j, k, hj, hk, rfl⟩)⟩
    · exact ⟨l, g, exec_cmp_iff.mpr (.inr (.inl ⟨ha, hb, rfl⟩))⟩
    · exact ⟨l, g, exec_cmp_iff.mpr (.inr (.inr ⟨ha, rfl⟩))⟩
  · have hpass : mapNext _ (exec i s) = exec i (s.setLessGreater l g) :=
      (transparent_setLessGreater l g).mapNext_exec (fun hi => absurd hi hcmp) fun _ => rfl
    exact ⟨l, g, by rw [← hpass, h, mapNext_next]⟩

/-- The same of a step: the fetch reads no flag. -/
theorem step_setLessGreater {s t : State} (l g : Bool) (h : step s = .next t) :
    ∃ l' g', step (s.setLessGreater l g) = .next (t.setLessGreater l' g') := by
  have hdecode := (transparent_setLessGreater l g).decodeAt s
  obtain ⟨hr, ⟨hpc, rfl⟩ | ⟨hpc, ⟨e, hd⟩, rfl⟩ | ⟨hpc, i, hd, he⟩⟩ := step_eq_next.mp h
  · exact ⟨l, g, step_eq_next.mpr ⟨hr, .inl ⟨hpc, rfl⟩⟩⟩
  · exact ⟨l, g, step_eq_next.mpr ⟨hr, .inr (.inl ⟨hpc, ⟨e, hdecode.trans hd⟩, rfl⟩)⟩⟩
  · obtain ⟨l', g', he'⟩ := exec_setLessGreater l g he
    exact ⟨l', g', step_eq_next.mpr ⟨hr, .inr (.inr ⟨hpc, i, hdecode.trans hd, he'⟩)⟩⟩

/-- Settles O21, by induction on the number of steps: each step passes the difference on to the rest of the run. -/
theorem lessAndGreaterInfluenceNothingElse : Obligations.LessAndGreaterInfluenceNothingElse := by
  intro n
  induction n with
  | zero =>
    intro s t l g h
    obtain rfl : s = t := Host.Outcome.next.inj h
    exact ⟨l, g, rfl⟩
  | succ n ih =>
    intro s t l g h
    obtain ⟨u, hu, hrun⟩ := run_succ_eq_next.mp h
    obtain ⟨lu, gu, hu'⟩ := step_setLessGreater l g hu
    obtain ⟨l', g', hrun'⟩ := ih u t lu gu hrun
    exact ⟨l', g', (run_succ_of_next hu' n).trans hrun'⟩

/-! ### A register that is not named -/

theorem State.setReg_comm (s : State) {i k : RegId} (h : i ≠ k) (v w : Byte) :
    (s.setReg i w).setReg k v = (s.setReg k v).setReg i w := by
  have hval : i.val ≠ k.val := fun he => h (Fin.ext he)
  simp only [State.setReg, Vector.set_comm _ _ hval]

theorem State.setReg_of_advance (s : State) (k : RegId) (v : Byte) (n : Nat) :
    (s.advance n).setReg k v = (s.setReg k v).advance n := rfl

/-- The write of a register and the advance after it let a write of another register through. -/
theorem mapNext_setReg_advance {s : State} {j k : RegId} (h : j ≠ k) (v w : Byte) (n : Nat) :
    mapNext (·.setReg k v) (.next ((s.setReg j w).advance n)) = .next (((s.setReg k v).setReg j w).advance n) := by
  rw [mapNext_next, State.setReg_of_advance, State.setReg_comm s h]

/-- The seven instructions of the common ALU shape. -/
theorem mapNext_setReg_exec_alu {i : Instr} {f : Byte → Byte → Byte} {ra rb : Byte} (hf : aluFunction i = some f)
    (hr : registerBytes i = [ra, rb]) (s : State) {k : RegId} (ha : ra.toNat ≠ k.val) (hb : rb.toNat ≠ k.val)
    (v : Byte) :
    mapNext (·.setReg k v) (exec i s) = exec i (s.setReg k v) := by
  rw [exec_eq_aluBinary hf hr, exec_eq_aluBinary hf hr]
  refine mapNext_withRegs (fun _ => rfl) fun j l hj hl => ?_
  have hjk : j ≠ k := fun h => ha (h ▸ hj)
  have hlk : l ≠ k := fun h => hb (h ▸ hl)
  rw [mapNext_setReg_advance hjk, State.reg_setReg_of_ne s v hjk.symm, State.reg_setReg_of_ne s v hlk.symm]

/-- Settles O27: the write of another register goes through every check, read and write of the instruction. -/
theorem unnamedRegistersHaveNoInfluence : Obligations.UnnamedRegistersHaveNoInfluence := by
  intro i s k v hk
  symm
  have hl : ∀ e, (s.latch e).setReg k v = (s.setReg k v).latch e := fun _ => rfl
  have hne : ∀ {b : Byte} {j : RegId}, b ∈ registerBytes i → b.toNat = j.val → j ≠ k := by
    rintro b j hb hj rfl
    exact hk b hb hj
  have hreg : ∀ {j : RegId}, j ≠ k → (s.setReg k v).reg j = s.reg j := fun h => s.reg_setReg_of_ne v h.symm
  cases i with
  | nop | hlt => rfl
  | ret =>
    simp only [exec, execRet]
    exact mapNext_pop (f := (·.setReg k v)) hl rfl rfl
  | push r =>
    refine mapNext_withReg hl fun j hj => ?_
    rw [hreg (hne (List.mem_singleton_self r) hj)]
    exact mapNext_push (f := (·.setReg k v)) hl rfl rfl
  | pop r =>
    refine mapNext_withReg hl fun j hj => mapNext_pop (f := (·.setReg k v)) hl rfl ?_
    exact mapNext_setReg_advance (hne (List.mem_singleton_self r) hj) v _ 2
  | prn r | jmp r =>
    refine mapNext_withReg hl fun j hj => ?_
    rw [hreg (hne (List.mem_singleton_self r) hj)]
    rfl
  | jeq r | jne r =>
    refine mapNext_withReg hl fun j hj => ?_
    rw [hreg (hne (List.mem_singleton_self r) hj), mapNext_next, apply_ite (State.setReg · k v)]
    rfl
  | call r =>
    refine mapNext_withReg hl fun j hj => ?_
    rw [hreg (hne (List.mem_singleton_self r) hj), State.setReg_pc]
    split
    · exact mapNext_raise hl _
    · exact mapNext_push (f := (·.setReg k v)) hl rfl rfl
  | not r =>
    refine mapNext_withReg hl fun j hj => ?_
    have hjk := hne (List.mem_singleton_self r) hj
    rw [mapNext_setReg_advance hjk, hreg hjk]
  | ldi r imm =>
    exact mapNext_withReg hl fun j hj => mapNext_setReg_advance (hne (List.mem_singleton_self r) hj) v imm 3
  | mod ra rb =>
    refine mapNext_withRegs hl fun j l hj hl' => ?_
    have hjk := hne (List.mem_cons_self) hj
    rw [hreg hjk, hreg (hne (List.mem_pair.mpr (.inr rfl)) hl'), State.setReg_pc]
    split
    · exact mapNext_raise hl _
    · exact mapNext_setReg_advance hjk v _ 3
  | cmp ra rb =>
    refine mapNext_withRegs hl fun j l hj hl' => ?_
    rw [hreg (hne List.mem_cons_self hj), hreg (hne (List.mem_pair.mpr (.inr rfl)) hl')]
    rfl
  | add ra rb | mul ra rb | and ra rb | or ra rb | xor ra rb | shl ra rb | shr ra rb =>
    exact mapNext_setReg_exec_alu rfl rfl s (hk ra List.mem_cons_self) (hk rb (List.mem_pair.mpr (.inr rfl))) v

end Sys2Proof.Machine
end

section
/-! PROOF. The engine's statements of spec/40_engine_step.md and spec/20_memory.md: what a step runs (R71), a fetch
above 255 (R34, R75), a jump to itself (R74, R76) and zero memory (R157). -/

namespace Sys2Proof.Machine

/-! ### A single step -/

/-- Settles O6, which is `step_of_decodeAt`. -/
theorem stepRunsTheDecodedInstruction : Obligations.StepRunsTheDecodedInstruction :=
  fun _ _ => step_of_decodeAt

theorem step_of_pc_gt {s : State} (hs : s.Running) (hpc : 255 < s.pc.toNat) :
    step s = .next (s.latch (.outOfBoundsAccess s.pc)) :=
  step_eq_next.mpr ⟨hs, .inl ⟨hpc, rfl⟩⟩

/-- Settles O9, which is `step_of_pc_gt`. -/
theorem opcodeFetchAbove255Raises : Obligations.OpcodeFetchAbove255Raises :=
  fun _ => step_of_pc_gt

theorem fetchOperand_of_ge (s : State) {p : PcWord} (h : 256 ≤ p.toNat) : fetchOperand s p = 0#8 :=
  if_neg (Nat.not_lt.mpr h)

/-- Settles O10: at 255 both operand fetches are above memory, at 254 the second one is. -/
theorem operandsAbove255ReadAsZero : Obligations.OperandsAbove255ReadAsZero := by
  refine ⟨fun s i hs hpc hd => ?_, fun s i hs hpc hd => ?_⟩
  · refine step_of_decodeAt hs (by simp [hpc]) ?_
    rw [decodeAt, fetchOpcode, hpc, fetchOperand_of_ge s (by decide), fetchOperand_of_ge s (by decide)]
    exact hd
  · refine step_of_decodeAt hs (by simp [hpc]) ?_
    rw [decodeAt, fetchOpcode, hpc, fetchOperand_of_ge s (p := 254#9 + 2#9) (by decide)]
    exact hd

/-! ### Runs -/

theorem run_of_step_self {s : State} (h : step s = .next s) (n : Nat) : Host.Core.run core n s = .next s := by
  induction n with
  | zero => rfl
  | succ n ih => rw [run_succ_of_next h, ih]

/-- Settles O52: the redirect to `pc` is the same state again. -/
theorem aJumpToItselfNeverEnds : Obligations.AJumpToItselfNeverEnds := by
  intro s r i hr hs hpc hd htarget
  have hself : s.redirect (s.reg i) = s := by rw [State.redirect, htarget]
  have hexec : exec (.jmp r) s = .next s := exec_jmp_iff.mpr (.inl ⟨i, hr, hself.symm⟩)
  exact run_of_step_self ((step_of_decodeAt hs hpc hd).trans hexec)

/-- A zero byte at `pc` is a NOP, whatever follows it (R58). -/
theorem decodeAt_of_zero {s : State} (h : fetchOpcode s = 0#8) : decodeAt s = .ok .nop := by
  rw [decodeAt, h]
  rfl

/-- Over zero memory a run is NOPs up to the top, one for each address, and then goes on from there. -/
theorem run_over_zeros (n : Nat) {k : Nat} {s : State} (hk : s.pc.toNat + k = 256) (hs : s.Running)
    (hzero : ∀ a : Addr, s.pc.toNat ≤ a.toNat → s.memRead a = 0#8) :
    Host.Core.run core (n + k) s = Host.Core.run core n { s with pc := 256#9 } := by
  induction k generalizing s with
  | zero =>
    have hpc : s.pc = 256#9 := BitVec.eq_of_toNat_eq hk
    rw [← hpc]
    rfl
  | succ k ih =>
    have hlt : s.pc.toNat < 2 ^ 8 := by omega
    have hopcode : fetchOpcode s = 0#8 := hzero _ (by rw [BitVec.toNat_setWidth, Nat.mod_eq_of_lt hlt])
    have hnext : step s = .next (s.advance 1) :=
      (step_of_decodeAt hs (by omega) (decodeAt_of_zero hopcode)).trans (exec_nop_iff.mpr rfl)
    have hpc : (s.advance 1).pc.toNat = s.pc.toNat + 1 := by
      rw [State.advance_pc, BitVec.toNat_add, BitVec.toNat_ofNat]
      omega
    rw [← Nat.add_assoc, run_succ_of_next hnext]
    exact ih (by omega) hs fun a ha => hzero a (by omega)

/-- Settles O53: the NOPs up to the top, and one more step there, which fetches above 255. -/
theorem zeroMemoryRunsOffTheTop : Obligations.ZeroMemoryRunsOffTheTop := by
  intro s hs hle hzero
  have hk : s.pc.toNat + (256 - s.pc.toNat) = 256 := by omega
  have hsucc : 257 - s.pc.toNat = 1 + (256 - s.pc.toNat) := by omega
  have hgt : 255 < (256#9).toNat := by decide
  have htop := step_of_pc_gt (s := { s with pc := 256#9 }) hs hgt
  refine ⟨?_, ?_⟩
  · rw [← Nat.zero_add (256 - s.pc.toNat), run_over_zeros 0 hk hs hzero, run_zero]
  · rw [hsucc, run_over_zeros 1 hk hs hzero, run_succ_of_next htop, run_zero]
    rfl

end Sys2Proof.Machine
end

section
/-! PROOF. The frames of the writes of `OUT`, `sp`, memory and the flags, and the statements about single instructions
that follow: PRN (R82), PUSH and POP (R87, R88, R89), CALL, RET, JEQ and JNE (R91, R92, R94, R95, R96), and a pushed byte
that is executed (R47, R156). -/

namespace Sys2Proof.Machine

/-! ### Frames -/

theorem onlyChanges_emit (s : State) (v : Byte) : OnlyChanges [.out] s (s.emit v) := by
  refine .intro (hout := fun h => absurd (List.mem_singleton_self _) h) ?_ ?_ ?_ ?_ ?_ ?_ ?_ <;> intros <;> rfl

theorem onlyChanges_setSp (s : State) (v : Addr) : OnlyChanges [.sp] s (s.setSp v) := by
  refine .intro (hsp := fun h => absurd (List.mem_singleton_self _) h) ?_ ?_ ?_ ?_ ?_ ?_ ?_ <;> intros <;> rfl

theorem onlyChanges_memWrite {s : State} (hwf : s.mem.wf) (a : Addr) (v : Byte) :
    OnlyChanges [.byte a] s (s.memWrite a v) := by
  have hmem : ∀ b, .byte b ∉ [Piece.byte a] → (s.memWrite a v).memRead b = s.memRead b := by
    intro b hb
    refine State.memRead_memWrite_of_ne hwf v ?_
    rintro rfl
    exact hb (List.mem_singleton_self _)
  refine .intro (hmem := hmem) ?_ ?_ ?_ ?_ ?_ ?_ ?_ <;> intros <;> rfl

theorem OnlyChanges.mono {ps qs : List Piece} {s t : State} (h : OnlyChanges ps s t) (hsub : ps ⊆ qs) :
    OnlyChanges qs s t :=
  fun p hp => h p fun hps => hp (hsub hps)

/-- A piece that ends as it began need not be listed. -/
theorem OnlyChanges.of_cons {p : Piece} {ps : List Piece} {s t : State} (h : OnlyChanges (p :: ps) s t)
    (hp : p.Same s t) : OnlyChanges ps s t := by
  intro q hq
  by_cases hqp : q = p
  · rwa [hqp]
  · exact h q (List.not_mem_cons_of_ne_of_not_mem hqp hq)

/-- What a frame leaves unlisted reads the same. -/
theorem OnlyChanges.memRead {ps : List Piece} {s t : State} (h : OnlyChanges ps s t) {a : Addr}
    (ha : .byte a ∉ ps) : t.memRead a = s.memRead a :=
  h (.byte a) ha

theorem OnlyChanges.reg {ps : List Piece} {s t : State} (h : OnlyChanges ps s t) {i : RegId}
    (hi : .reg i ∉ ps) : t.reg i = s.reg i :=
  h (.reg i) hi

/-! ### PRN -/

/-- Settles O31: the append and then the advance by 2, whose frames compose. -/
theorem prnAppendsTheRegister : Obligations.PrnAppendsTheRegister := fun s _ i hr =>
  ⟨(s.emit (s.reg i)).advance 2, exec_prn_iff.mpr (.inl ⟨i, hr, rfl⟩), rfl, rfl,
    (onlyChanges_emit s _).trans (onlyChanges_advance _ 2)⟩

/-! ### The stack -/

theorem sp_sub_one_toNat {a : Addr} (h : a ≠ 0#8) : (a - 1#8).toNat = a.toNat - 1 := by bv_omega

theorem sp_add_one_toNat {a : Addr} (h : a ≠ 255#8) : (a + 1#8).toNat = a.toNat + 1 := by bv_omega

/-- `s` with `v` pushed: what PUSH and CALL do to `sp` and memory (R85). -/
def State.pushed (s : State) (v : Byte) : State := (s.setSp (s.sp - 1#8)).memWrite (s.sp - 1#8) v

theorem State.memRead_pushed {s : State} (hwf : s.mem.wf) (v : Byte) : (s.pushed v).memRead (s.sp - 1#8) = v :=
  State.memRead_memWrite_self (s := s.setSp _) hwf _ v

theorem onlyChanges_pushed {s : State} (hwf : s.mem.wf) (v : Byte) :
    OnlyChanges [.sp, .byte (s.sp - 1#8)] s (s.pushed v) :=
  (onlyChanges_setSp s (s.sp - 1#8)).trans (onlyChanges_memWrite (s := s.setSp (s.sp - 1#8)) hwf _ v)

/-- Settles O33: a push of the register and then the advance by 2, whose frames compose. -/
theorem pushStoresBelowTheStackPointer : Obligations.PushStoresBelowTheStackPointer := by
  refine fun s r i hr => ⟨fun hwf hsp => ?_, fun hsp => exec_push_iff.mpr (.inl ⟨i, hr, .inr ⟨hsp, rfl⟩⟩)⟩
  exact ⟨(s.pushed (s.reg i)).advance 2, exec_push_iff.mpr (.inl ⟨i, hr, .inl ⟨hsp, rfl⟩⟩),
    sp_sub_one_toNat hsp, State.memRead_pushed hwf _, rfl,
    (onlyChanges_pushed hwf _).trans (onlyChanges_advance _ 2)⟩

/-- Settles O34: the increment of `sp`, the write of the byte read at the old one, and the advance by 2. -/
theorem popLoadsAtTheStackPointer : Obligations.PopLoadsAtTheStackPointer := by
  refine fun s r i hr => ⟨fun hsp => ?_, fun hsp => exec_pop_iff.mpr (.inl ⟨i, hr, .inr ⟨hsp, rfl⟩⟩)⟩
  refine ⟨_, exec_pop_iff.mpr (.inl ⟨i, hr, .inl ⟨hsp, rfl⟩⟩), State.reg_setReg_advance_self _ i _ 2,
    sp_add_one_toNat hsp, rfl, ?_⟩
  have hframe := (onlyChanges_setSp s (s.sp + 1#8)).trans (onlyChanges_setReg_advance _ i (s.memRead s.sp) 2)
  exact hframe.mono (by simp)

/-- Settles O35: the POP finds the byte where the PUSH put it, and raises `sp` to where the PUSH found it. -/
theorem pushThenPopMovesTheValue : Obligations.PushThenPopMovesTheValue := by
  intro s ra rb i j hi hj hwf hsp
  obtain ⟨t, ht, htsp, hbyte, -, hpush⟩ := (pushStoresBelowTheStackPointer s ra i hi).1 hwf hsp
  have htop : t.sp = s.sp - 1#8 := BitVec.eq_of_toNat_eq (htsp.trans (sp_sub_one_toNat hsp).symm)
  have hroom : t.sp ≠ 255#8 := by bv_omega
  obtain ⟨u, hu, hreg, husp, -, hpop⟩ := (popLoadsAtTheStackPointer t rb j hj).1 hroom
  have hback : u.sp = s.sp := by bv_omega
  refine ⟨t, u, ht, hu, hreg.trans hbyte, hback, ?_, ?_⟩
  · rw [hpop.memRead (by simp), ← htop, hbyte]
  · exact ((hpush.trans hpop).mono (by simp)).of_cons (p := .sp) hback

/-! ### Calls and returns -/

/-- A return address above 255 is reported before the stack is looked at (D15, D16). -/
theorem call_raises_of_return_gt {s : State} {r : Byte} {i : RegId} {address : PcWord} (hr : r.toNat = i.val)
    (hreturn : s.pc + 2#9 = address) (hgt : 255 < address.toNat) :
    Raises (.call r) s (.outOfBoundsAccess address) := by
  subst hreturn
  exact exec_call_iff.mpr (.inl ⟨i, hr, .inl ⟨hgt, rfl⟩⟩)

/-- Settles O36: up to address 253 the return address is a byte, which is pushed before the redirect; the pushed byte's
frame and the redirect's compose. -/
theorem callPushesTheReturnAddress : Obligations.CallPushesTheReturnAddress := by
  intro s r i hr
  refine ⟨fun hwf hpc hsp => ?_, fun hpc => call_raises_of_return_gt hr (by rw [hpc]; rfl) (by decide),
    fun hpc => call_raises_of_return_gt hr (by rw [hpc]; rfl) (by decide), fun hpc hsp => ?_⟩
  · have hreturn : (s.pc + 2#9).toNat = s.pc.toNat + 2 := by bv_omega
    have hbyte : ((s.pc + 2#9).setWidth 8).toNat = s.pc.toNat + 2 := by
      rw [BitVec.toNat_setWidth, hreturn]; omega
    refine ⟨(s.pushed ((s.pc + 2#9).setWidth 8)).redirect (s.reg i), ?_, rfl, sp_sub_one_toNat hsp, ?_, ?_⟩
    · exact exec_call_iff.mpr (.inl ⟨i, hr, .inr (.inl ⟨by omega, hsp, rfl⟩)⟩)
    · exact (congrArg BitVec.toNat (State.memRead_pushed hwf _)).trans hbyte
    · exact (onlyChanges_pushed hwf _).trans (onlyChanges_redirect _ _)
  · exact exec_call_iff.mpr (.inl ⟨i, hr, .inr (.inr ⟨by bv_omega, hsp, rfl⟩)⟩)

/-- Settles O37: the increment of `sp` and the redirect to the byte read at the old one, whose frames compose. -/
theorem retPopsTheTarget : Obligations.RetPopsTheTarget := by
  refine fun s => ⟨fun hsp => ?_, fun hsp => exec_ret_iff.mpr (.inr ⟨hsp, rfl⟩)⟩
  refine ⟨_, exec_ret_iff.mpr (.inl ⟨hsp, rfl⟩), rfl, sp_add_one_toNat hsp, ?_⟩
  exact ((onlyChanges_setSp s _).trans (onlyChanges_redirect _ _)).mono (by simp)

/-- Settles O38: the RET reads the return address that the CALL pushed. -/
theorem returnResumesAfterTheCall : Obligations.ReturnResumesAfterTheCall := by
  intro s r i hr hwf hpc hsp
  obtain ⟨t, ht, -, htsp, hbyte, -⟩ := (callPushesTheReturnAddress s r i hr).1 hwf hpc hsp
  refine ⟨t, ht, fun u husp hsame => ?_⟩
  have htop : t.sp = s.sp - 1#8 := BitVec.eq_of_toNat_eq (htsp.trans (sp_sub_one_toNat hsp).symm)
  have hroom : u.sp ≠ 255#8 := by bv_omega
  obtain ⟨v, hv, hvpc, hvsp, -⟩ := (retPopsTheTarget u).1 hroom
  refine ⟨v, hv, ?_, by bv_omega⟩
  rw [hvpc, BitVec.toNat_setWidth_of_le (by decide), husp, htop, hsame, ← htop, hbyte]

/-! ### Branches -/

/-- Settles O40: a branch redirects or advances by 2, and the frame of each is `pc`. -/
theorem jeqFollowsTheEqualFlag : Obligations.JeqFollowsTheEqualFlag := by
  refine ⟨fun s r i hr => ?_, fun s r hr => exec_jeq_iff.mpr (.inr ⟨hr, rfl⟩)⟩
  refine ⟨_, exec_jeq_iff.mpr (.inl ⟨i, hr, rfl⟩), apply_ite State.pc _ _ _, ?_⟩
  split
  · exact onlyChanges_redirect s _
  · exact onlyChanges_advance s 2

/-- Settles O41: as for JEQ, with the two outcomes exchanged. -/
theorem jneFollowsTheEqualFlag : Obligations.JneFollowsTheEqualFlag := by
  refine ⟨fun s r i hr => ?_, fun s r hr => exec_jne_iff.mpr (.inr ⟨hr, rfl⟩)⟩
  refine ⟨_, exec_jne_iff.mpr (.inl ⟨i, hr, rfl⟩), ?_, ?_⟩
  · cases s.fl.e <;> rfl
  · split
    · exact onlyChanges_advance s 2
    · exact onlyChanges_redirect s _

/-! ### A pushed byte that is executed -/

/-- An operand byte reads the same where memory does. -/
theorem fetchOperand_congr {s t : State} {p : PcWord}
    (h : p.toNat < 256 → t.memRead (p.setWidth 8) = s.memRead (p.setWidth 8)) :
    fetchOperand t p = fetchOperand s p := by
  rcases Nat.lt_or_ge p.toNat 256 with hp | hp
  · exact (if_pos hp).trans ((h hp).trans (if_pos hp).symm)
  · rw [fetchOperand_of_ge t hp, fetchOperand_of_ge s hp]

/-- Settles O51: the opcode fetch after the PUSH reads the pushed byte, the operand fetches read what was there
before. -/
theorem aPushedByteIsExecutedNext : Obligations.APushedByteIsExecutedNext := by
  intro s r i j hr hs hwf hsp hnext hd
  obtain ⟨t, ht, htsp, hbyte, htpc, hframe⟩ := (pushStoresBelowTheStackPointer s r i hr).1 hwf hsp
  have hpc : t.pc.toNat = s.pc.toNat + 2 := by bv_omega
  have hsetpc : t.pc.setWidth 8 = t.sp := by bv_omega
  have hrun : t.Running := ⟨Eq.trans (hframe .run (by simp)) hs.1, Eq.trans (hframe .fault (by simp)) hs.2⟩
  have hoperand : ∀ p : PcWord, p.toNat ≠ t.sp.toNat → fetchOperand t p = fetchOperand s p := by
    refine fun p hp => fetchOperand_congr fun hlt => hframe.memRead ?_
    have hne : p.setWidth 8 ≠ s.sp - 1#8 := by bv_omega
    simpa using hne
  refine ⟨t, ht, hpc, step_of_decodeAt hrun (by omega) ?_⟩
  rw [decodeAt, fetchOpcode, hsetpc, hbyte, hoperand _ (by bv_omega), hoperand _ (by bv_omega), htpc]
  simpa [BitVec.add_assoc] using hd

end Sys2Proof.Machine
end

section
/-! PROOF. The remaining statements of spec/44_alu.md: MOD (R105), CMP (R107), the shifts (R106, R111, R112), and the
carry that a CMP after an ADD detects (R161). -/

namespace Sys2Proof.Machine

/-- Settles O45: the quotient is A / B, and the remainder, being below B, is a byte. -/
theorem modIsTheRemainderOrDivisionByZero : Obligations.ModIsTheRemainderOrDivisionByZero := by
  refine fun s ra rb i j hi hj => ⟨fun hne => ?_, fun h0 => exec_mod_iff.mpr (.inl ⟨i, j, hi, hj, .inl ⟨h0, rfl⟩⟩)⟩
  have hpos : 0 < (s.reg j).toNat := Nat.pos_of_ne_zero fun h => hne (BitVec.eq_of_toNat_eq h)
  have hlt : (s.reg i).toNat % (s.reg j).toNat < (s.reg j).toNat := Nat.mod_lt _ hpos
  have hrem : (BitVec.ofNat 8 ((s.reg i).toNat % (s.reg j).toNat)).toNat = (s.reg i).toNat % (s.reg j).toNat :=
    (BitVec.toNat_ofNat _ _).trans (Nat.mod_eq_of_lt (hlt.trans (s.reg j).isLt))
  refine ⟨_, (s.reg i).toNat / (s.reg j).toNat, exec_mod_iff.mpr (.inl ⟨i, j, hi, hj, .inr ⟨hne, rfl⟩⟩), ?_, ?_, rfl,
    onlyChanges_setReg_advance s i _ 3⟩
  · rwa [State.reg_setReg_advance_self, hrem]
  · rw [State.reg_setReg_advance_self, hrem, Nat.div_add_mod']

theorem onlyChanges_setFlags (s : State) (fl : Flags) : OnlyChanges [.flags] s (s.setFlags fl) := by
  refine .intro (hfl := fun h => absurd (List.mem_singleton_self _) h) ?_ ?_ ?_ ?_ ?_ ?_ ?_ <;> intros <;> rfl

/-- Settles O46: the write of the flags and then the advance by 3, whose frames compose. -/
theorem cmpSetsAllThreeFlags : Obligations.CmpSetsAllThreeFlags := by
  intro s ra rb i j hi hj
  refine ⟨_, exec_cmp_iff.mpr (.inl ⟨i, j, hi, hj, rfl⟩), ?_, decide_eq_true_iff, decide_eq_true_iff, rfl,
    (onlyChanges_setFlags s _).trans (onlyChanges_advance _ 3)⟩
  exact decide_eq_true_iff.trans BitVec.toNat_inj

/-- Settles O48: SHL is of the common shape, and shifting left is multiplying modulo 256. -/
theorem shlShiftsLeftModulo8 : Obligations.ShlShiftsLeftModulo8 := by
  intro s ra rb i j hi hj
  obtain ⟨t, ht, hshift, hpc, hframe⟩ := exec_alu_writes_first (i := .shl ra rb) rfl rfl hi hj s
  have hval : (t.reg i).toNat = (s.reg i).toNat * 2 ^ ((s.reg j).toNat % 8) % 256 := by
    rw [hshift, BitVec.toNat_ofNat, shiftAmount]
  refine ⟨t, ht, BitVec.eq_of_toNat_eq ?_, hval, hpc, hframe⟩
  rw [hval, BitVec.toNat_shiftLeft, Nat.shiftLeft_eq]

/-- Settles O49: SHR is of the common shape, and shifting right is dividing. -/
theorem shrShiftsRightLogicallyModulo8 : Obligations.ShrShiftsRightLogicallyModulo8 := by
  intro s ra rb i j hi hj
  obtain ⟨t, ht, hshift, hpc, hframe⟩ := exec_alu_writes_first (i := .shr ra rb) rfl rfl hi hj s
  have hval : (t.reg i).toNat = (s.reg i).toNat / 2 ^ ((s.reg j).toNat % 8) := by
    rw [hshift, BitVec.toNat_ofNat, shiftAmount]
    exact Nat.mod_eq_of_lt ((Nat.div_le_self _ _).trans_lt (s.reg i).isLt)
  refine ⟨t, ht, BitVec.eq_of_toNat_eq ?_, hval, hpc, hframe⟩
  rw [hval, BitVec.toNat_ushiftRight, Nat.shiftRight_eq_div_pow]

/-- Settles O50: ADD keeps the second register, and the sum modulo 256 is below it exactly when 256 was taken off. -/
theorem compareAfterAddDetectsTheCarry : Obligations.CompareAfterAddDetectsTheCarry := by
  intro s ra rb i j hi hj hij
  obtain ⟨-, hadd, -⟩ := addIsTheSumModulo256
  obtain ⟨t, -, ht, hsum, -, hframe, -⟩ := hadd s ra rb i j hi hj
  obtain ⟨u, hu, -, hless, -⟩ := cmpSetsAllThreeFlags t ra rb i j hi hj
  have hkept : t.reg j = s.reg j := hframe.reg (by simpa using hij.symm)
  have hA := (s.reg i).isLt
  have hB := (s.reg j).isLt
  refine ⟨t, u, ht, hu, hless.trans ?_⟩
  rw [hsum, hkept]
  omega

end Sys2Proof.Machine
end
